-- ==== Sys2Proof/Word.lean ====
section
/-! DEFINITION. The bit-vector types of the machine: spec/00_scope.md R4 (widths), section 5.1. -/

namespace Sys2Proof

/-- A 32-bit string: a register value, an address, an instruction word (R4, R10, R50). -/
abbrev Word := BitVec 32

/-- The addressable unit, eight bits (R4, R22). -/
abbrev Byte := BitVec 8

/-- A 16-bit string: the `imm` field, a half word (R4, R52). -/
abbrev Half := BitVec 16

/-- A register number, the five bits of a field `rs`, `rt` or `rd` (R10, R51). -/
abbrev RegIdx := BitVec 5

/-- Register 31, the source's `$ra` (R12). -/
abbrev RegIdx.ra : RegIdx := 31#5

end Sys2Proof
end

