-- ==== Sys2Proof/Machine/Flags.lean ====
section
/-! DEFINITION. The machine has no flags (spec/10_state.md R20). Its conditions are computed here: signed overflow
(spec/40_arithmetic.md R70), comparisons (spec/48_compare.md R150 to R153) and branch conditions
(spec/42_branch.md R91 to R98). -/

namespace Sys2Proof.Machine

/-- The exact integer does not fit in 32 bits as a two's-complement number (R70, R170). -/
def outOfRange (n : Int) : Bool := decide (n < -2 ^ 31) || decide (n > 2 ^ 31 - 1)

/-- The signed sum overflows (R70). -/
def addOverflows (a b : Word) : Bool := outOfRange (a.toInt + b.toInt)

/-- The signed difference overflows (R70). -/
def subOverflows (a b : Word) : Bool := outOfRange (a.toInt - b.toInt)

/-- `s(a) < s(b)` (R150). -/
def lessSigned (a b : Word) : Bool := decide (a.toInt < b.toInt)

/-- `u(a) < u(b)` (R153). -/
def lessUnsigned (a b : Word) : Bool := decide (a.toNat < b.toNat)

/-- The outcome of a comparison as a register value, 1 or 0. -/
def boolWord (c : Bool) : Word := if c then 1#32 else 0#32

end Sys2Proof.Machine
end

