-- ==== Sys2Proof/Config.lean ====
section
/-! DEFINITION. What the spec leaves open: the run's parameters as plain data, and the free values as
constants without a body (spec/00_scope.md R5). -/

namespace Sys2Proof

/-- `ENDIAN`, the byte order of data and of the instruction fetch (R30). -/
inductive Endian where
  | little
  | big
  deriving DecidableEq, Repr

/-- A run of byte addresses `base .. base + size - 1`; `MEM_VALID` and `TEXT` are lists of these. -/
structure Region where
  base : Nat
  size : Nat
  deriving DecidableEq, Repr

/-- The parameters fixed for a whole run (R5): no instruction reads or writes them as registers. -/
structure Params where
  /-- `ENDIAN` (R30). -/
  endian : Endian
  /-- `MEM_VALID`, the bytes that exist (R39). -/
  memValid : List Region
  /-- `TEXT`, the bytes that hold the program (R45). -/
  text : List Region
  deriving DecidableEq, Repr

/-- `draw_32()` (spec/00_scope.md 5.3): the n-th value drawn in a run. A free value: it has no body, so
nothing can be proved of it. DESIGN CHOICE of form, safe; log 8. -/
opaque Config.draw : Nat → Word

/-- The value of a register that the launch does not set (R24: "whatever", "or, at its choice, as
`draw_32()`"), numbered 0 to 31 for the general registers, 32 for HI, 33 for LO. A free value, safe;
log 9. -/
opaque Config.unsetRegister : Nat → Word

end Sys2Proof
end

