-- ==== Sys2Proof/Machine/Bytes.lean ====
section
/-! DEFINITION. Byte order (spec/20_memory.md R30 to R33) and byte significance (spec/45_load.md R128). -/

namespace Sys2Proof.Machine

/-- Byte `j` of a word by significance: `byteOf v 0` is bits 7:0, `byteOf v 3` bits 31:24 (R128). -/
def byteOf (v : Word) (j : Nat) : Byte := v.extractLsb' (8 * j) 8

/-- `MemRead(addr, 2)` from the bytes at `addr` and `addr + 1` (R31). -/
def joinHalf : Endian → Byte → Byte → Half
  | .little, b0, b1 => b1 ++ b0
  | .big, b0, b1 => b0 ++ b1

/-- `MemRead(addr, 4)` from the bytes at `addr` to `addr + 3` (R31). -/
def joinWord : Endian → Byte → Byte → Byte → Byte → Word
  | .little, b0, b1, b2, b3 => b3 ++ b2 ++ b1 ++ b0
  | .big, b0, b1, b2, b3 => b0 ++ b1 ++ b2 ++ b3

/-- The byte that `MemWrite(addr, n, v)` puts at `addr + i` (R32). -/
def storedByte (e : Endian) (n : Nat) (v : Word) (i : Nat) : Byte :=
  match e with
  | .little => byteOf v i
  | .big => byteOf v (n - 1 - i)

/-- The four bytes of an instruction word at ascending addresses (R33). -/
def wordBytes (e : Endian) (v : Word) : List Byte := (List.range 4).map (storedByte e 4 v)

/-- The addresses `addr` to `addr + n - 1`, modulo 2^32 (R31, R40). -/
def addressRange (addr : Word) (n : Nat) : List Word :=
  (List.range n).map fun i => addr + BitVec.ofNat 32 i

/-- The address of the aligned word that contains `ea` (R37, R128). -/
def wordBase (ea : Word) : Word := ea &&& 0xFFFFFFFC#32

/-- `k`, the significance of the byte that `ea` addresses inside its aligned word (R128). -/
def significance (e : Endian) (ea : Word) : Nat :=
  match e with
  | .little => ea.toNat % 4
  | .big => 3 - ea.toNat % 4

/-- The address of the byte of significance `j` of the aligned word at `base` (R128, R133). -/
def significanceAddress (e : Endian) (base : Word) (j : Nat) : Word :=
  match e with
  | .little => base + BitVec.ofNat 32 j
  | .big => base + BitVec.ofNat 32 (3 - j)

end Sys2Proof.Machine
end

