-- ==== Sys2Proof/Machine/Memory.lean ====
section
/-! DEFINITION. Memory as data: a byte for each of the 2^32 addresses (spec/10_state.md R22, spec/20_memory.md
R34, R39), kept as the list of the addresses whose byte is not the one an unlisted address reads as. -/

namespace Sys2Proof.Machine

/-- Pairs of an address and its byte. -/
abbrev Memory := List Host.Cell

/-- What an unlisted address reads as. DESIGN CHOICE, unsafe: the spec leaves `INIT_MEM` open (R24); log 4. -/
def unlistedByte : Byte := 0

/-- The byte at an address: a read changes nothing (R38). -/
def Memory.readAt (k : Nat) : Memory → Byte
  | [] => unlistedByte
  | c :: m => if c.1 = k then c.2 else Memory.readAt k m

/-- Lists the byte `b` at address `k`, in its place. -/
def Memory.list (k : Nat) (b : Byte) : Memory → Memory
  | [] => [(k, b)]
  | c :: m => if k < c.1 then (k, b) :: c :: m else if c.1 = k then (k, b) :: m else c :: Memory.list k b m

/-- Writes the byte at address `k`; writing what an unlisted address reads as removes the entry. -/
def Memory.writeAt (k : Nat) (b : Byte) (m : Memory) : Memory :=
  if b = unlistedByte then m.filter (fun c => c.1 != k) else Memory.list k b m

/-- `Mem[addr]` (R22). -/
def Memory.read (m : Memory) (addr : Word) : Byte := m.readAt addr.toNat

/-- `Mem[addr] <- b` (R32). -/
def Memory.write (m : Memory) (addr : Word) (b : Byte) : Memory := m.writeAt addr.toNat b

/-- Writes one byte after another. -/
def Memory.writeCells (m : Memory) (cells : List (Word × Byte)) : Memory :=
  cells.foldl (fun m c => m.write c.1 c.2) m

/-- Every entry lies in the address space and differs from what an unlisted address reads as. -/
def Memory.entryOk (c : Host.Cell) : Bool := decide (c.1 < 2 ^ 32) && c.2 != unlistedByte

/-- The canonical form: addresses strictly rising, every entry in the address space and not the byte of an
unlisted address. Equal memories are then equal lists. -/
def Memory.wf : Memory → Bool
  | [] => true
  | c :: m => Memory.entryOk c && m.all (fun d => decide (c.1 < d.1)) && Memory.wf m

end Sys2Proof.Machine
end

