-- ==== Sys2Proof/Syntax.lean ====
section
/-! DEFINITION. The instruction set: one constructor for each of the 57 rows of spec/opcode_table.json
(spec/00_scope.md R2), its arguments the row's fields from the most significant down (spec/30_encoding.md
R51 to R53). -/

namespace Sys2Proof

/-- An instruction with its fields as the decoder cuts them out; the types carry the fields' widths
(R4, R56). The names are the source's own: `jlr` is usually written `jalr`, `sltui` usually `sltiu` (G3). -/
inductive Instr where
  /-- Add and subtract (spec/40_arithmetic.md). R71. -/
  | add (rs rt rd : RegIdx)
  /-- R72. -/
  | addi (rs rt : RegIdx) (imm : Half)
  /-- R73. -/
  | addiu (rs rt : RegIdx) (imm : Half)
  /-- R74. -/
  | addu (rs rt rd : RegIdx)
  /-- R75. -/
  | sub (rs rt rd : RegIdx)
  /-- R76. -/
  | subu (rs rt rd : RegIdx)
  /-- Logical and `lui` (spec/41_logical.md). R80. -/
  | and (rs rt rd : RegIdx)
  /-- R81. -/
  | andi (rs rt : RegIdx) (imm : Half)
  /-- R82. -/
  | lui (rt : RegIdx) (imm : Half)
  /-- R83. -/
  | nor (rs rt rd : RegIdx)
  /-- R84. -/
  | or (rs rt rd : RegIdx)
  /-- R85. -/
  | ori (rs rt : RegIdx) (imm : Half)
  /-- R86. -/
  | xor (rs rt rd : RegIdx)
  /-- R87. -/
  | xori (rs rt : RegIdx) (imm : Half)
  /-- Conditional branches (spec/42_branch.md). R91. -/
  | beq (rs rt : RegIdx) (imm : Half)
  /-- R92. -/
  | bgez (rs : RegIdx) (imm : Half)
  /-- R93. -/
  | bgezal (rs : RegIdx) (imm : Half)
  /-- R94. -/
  | bgtz (rs : RegIdx) (imm : Half)
  /-- R95. -/
  | blez (rs : RegIdx) (imm : Half)
  /-- R96. -/
  | bltzal (rs : RegIdx) (imm : Half)
  /-- R97. -/
  | bltz (rs : RegIdx) (imm : Half)
  /-- R98. -/
  | bne (rs rt : RegIdx) (imm : Half)
  /-- Multiply, divide, HIGH and LOW (spec/43_muldiv.md). R100. -/
  | div (rs rt : RegIdx)
  /-- R101. -/
  | divu (rs rt : RegIdx)
  /-- R102. -/
  | mfhi (rd : RegIdx)
  /-- R103. -/
  | mflo (rd : RegIdx)
  /-- R104. -/
  | mthi (rs : RegIdx)
  /-- R105. -/
  | mtlo (rs : RegIdx)
  /-- R106. -/
  | mult (rs rt : RegIdx)
  /-- R107. -/
  | multu (rs rt : RegIdx)
  /-- Jumps (spec/44_jump.md). R110. -/
  | j (target : BitVec 26)
  /-- R111. -/
  | jal (target : BitVec 26)
  /-- R112. -/
  | jlr (rs rd : RegIdx)
  /-- R113. -/
  | jr (rs : RegIdx)
  /-- Loads (spec/45_load.md). R121. -/
  | lb (rs rt : RegIdx) (imm : Half)
  /-- R122. -/
  | lbu (rs rt : RegIdx) (imm : Half)
  /-- R123. -/
  | lh (rs rt : RegIdx) (imm : Half)
  /-- R124. -/
  | lhu (rs rt : RegIdx) (imm : Half)
  /-- R125. -/
  | lw (rs rt : RegIdx) (imm : Half)
  /-- R126. -/
  | lwl (rs rt : RegIdx) (imm : Half)
  /-- R127. -/
  | lwr (rs rt : RegIdx) (imm : Half)
  /-- Stores (spec/46_store.md). R130. -/
  | sb (rs rt : RegIdx) (imm : Half)
  /-- R131. -/
  | sh (rs rt : RegIdx) (imm : Half)
  /-- R132. -/
  | sw (rs rt : RegIdx) (imm : Half)
  /-- R133. -/
  | swl (rs rt : RegIdx) (imm : Half)
  /-- R134. -/
  | swr (rs rt : RegIdx) (imm : Half)
  /-- Shifts (spec/47_shift.md). R141. -/
  | sll (rt rd : RegIdx) (sa : BitVec 5)
  /-- R142. -/
  | sllv (rs rt rd : RegIdx)
  /-- R143. -/
  | sra (rt rd : RegIdx) (sa : BitVec 5)
  /-- R144. -/
  | srav (rs rt rd : RegIdx)
  /-- R145. -/
  | srl (rt rd : RegIdx) (sa : BitVec 5)
  /-- R146. -/
  | srlv (rs rt rd : RegIdx)
  /-- Set on less than (spec/48_compare.md). R150. -/
  | slt (rs rt rd : RegIdx)
  /-- R151. -/
  | slti (rs rt : RegIdx) (imm : Half)
  /-- R152. -/
  | sltui (rs rt : RegIdx) (imm : Half)
  /-- R153. -/
  | sltu (rs rt rd : RegIdx)
  /-- System (spec/49_system.md). R160. -/
  | syscall (code : BitVec 20)
  deriving DecidableEq, Repr

end Sys2Proof
end

