-- ==== Sys2Proof/Machine/State.lean ====
section
/-! DEFINITION. The state of the machine (spec/10_state.md R10 to R25), the trap record (spec/60_exceptions.md
R176), the ways a step can stop, and the state after reset. -/

namespace Sys2Proof.Machine

/-- Which access met an address (R171). -/
inductive AccessKind where
  | load
  | store
  | fetch
  deriving DecidableEq, Repr

/-- The `kind` field of a trap record (R176): symbolic, never a number (R175). -/
inductive TrapKind where
  /-- R170. -/
  | overflow
  /-- R171. -/
  | addressError (access : AccessKind)
  /-- R172. -/
  | systemCall
  /-- R173. -/
  | reservedInstruction
  deriving DecidableEq, Repr

/-- What an exception leaves behind (R176); an unused field is `none`. -/
structure TrapRecord where
  kind : TrapKind
  /-- The `pc` when the exception was raised. -/
  epc : Word
  /-- The offending address, for an address error only. -/
  badaddr : Option Word
  /-- The fetched word, for a reserved instruction only. -/
  word : Option Word
  deriving DecidableEq, Repr

/-- Why the machine stops with a fault. -/
inductive Fault where
  /-- Raised by `step` when a trap record stands: the run has ended and there is no step (R15 (1), R176,
  R193). Safe. -/
  | runEnded
  deriving DecidableEq, Repr

/-- Situations the spec gives no meaning (spec/00_scope.md 5.3, `refuse`). -/
inductive Refusal where
  /-- Raised by an arm of `exec` without a meaning; there is none left. Safe. -/
  | notModelled (mnemonic : String)
  /-- Raised by a fetch, load or store that touches a byte outside `MEM_VALID`; the address is the first such
  byte (R39, U8). Safe. -/
  | outsideMemory (access : AccessKind) (addr : Word)
  /-- Raised by a store that would write a byte of `TEXT`; the address is the first such byte (R45, U8). Safe. -/
  | storeIntoText (addr : Word)
  /-- Raised by a fetch of a byte outside `TEXT`; the address is the first such byte (R45, U8). Safe. -/
  | fetchOutsideText (addr : Word)
  /-- Raised by `jlr` whose two operands are the same register, not register 0 (R112, U4). Safe. -/
  | jlrSameRegister (r : RegIdx)
  deriving DecidableEq, Repr

/-- The whole state (spec/10_state.md, opening tuple), with the parameters fixed for a run and the model's own
count of the values drawn. -/
structure State where
  /-- The general registers; entry 0 is never read or written (R10, R11). -/
  regs : Vector Word 32
  /-- The address of the instruction being executed (R14). -/
  pc : Word
  /-- The special register HIGH (R17). -/
  hi : Word
  /-- The special register LOW (R17). -/
  lo : Word
  /-- The bytes of memory (R22). -/
  mem : Memory
  /-- The trap record, once an exception has been raised (R19, R176). -/
  trap : Option TrapRecord
  /-- `ENDIAN`, `MEM_VALID` and `TEXT` (R5); no instruction changes them. Log 1. -/
  params : Params
  /-- How many values `draw_32()` has given; the model's own field. Log 8. -/
  draws : Nat
  deriving DecidableEq, Repr

/-- The state after reset: R24's launch state with the open parameters at the values the log names. The spec
gives `trap = none` and `x[0] = 0`. DESIGN CHOICE, unsafe: registers, HI and LO 0 (log 2), `ENTRY` (log 3),
`INIT_MEM` (log 4), `ENDIAN` (log 5), `MEM_VALID` (log 6), no program (log 7), no value drawn (log 8). -/
def State.reset : State where
  regs := Vector.replicate 32 0#32
  pc := 0x00400000#32
  hi := 0#32
  lo := 0#32
  mem := []
  trap := none
  params := ⟨.little, [⟨0, 2 ^ 32⟩], []⟩
  draws := 0

end Sys2Proof.Machine
end

