-- ==== Sys2Proof/Machine/Ops.lean ====
section
/-! DEFINITION. The named operations over registers, the program counter, memory and the trap record, which
every instruction is written with. -/

namespace Sys2Proof.Machine

/-- What a step or a meaning answers. -/
abbrev Result := Host.Outcome State Fault Refusal

/-! ### Registers and the program counter -/

/-- `x[r]`; register 0 reads as zero (R11). -/
def State.reg (s : State) (r : RegIdx) : Word :=
  if r = 0#5 then 0#32 else s.regs[r.toNat]'(by have := r.isLt; omega)

/-- `x[r] <- v`; a write to register 0 is discarded (R11). -/
def State.setReg (s : State) (r : RegIdx) (v : Word) : State :=
  if r = 0#5 then s else { s with regs := s.regs.set r.toNat v (by have := r.isLt; omega) }

/-- `pc <- pc + 4`, modulo 2^32 (R15, R16). -/
def State.advance (s : State) : State := { s with pc := s.pc + 4#32 }

/-- `pc <- target` (R15); no delay slot (R194). -/
def State.jumpTo (s : State) (target : Word) : State := { s with pc := target }

/-- An instruction whose whole effect is `x[r] <- v`. -/
def writeReg (r : RegIdx) (v : Word) (s : State) : Result := .next (s.setReg r v).advance

/-- An instruction whose whole effect is on HI and LO (R18). -/
def writeHiLo (hi lo : Word) (s : State) : Result := .next { s with hi := hi, lo := lo }.advance

/-- `LO <- draw_32(); HI <- draw_32()`: two fresh free values (R100, R101, U1). -/
def drawHiLo (s : State) : Result :=
  .next { s with lo := Config.draw s.draws, hi := Config.draw (s.draws + 1), draws := s.draws + 2 }.advance

/-! ### Exceptions -/

/-- The exceptions with their information (R170 to R173). -/
inductive Exception where
  | overflow
  | addressError (access : AccessKind) (addr : Word)
  | systemCall
  | reservedInstruction (word : Word)
  deriving DecidableEq, Repr

/-- The record an exception raised at `epc` leaves (R176). -/
def Exception.record (e : Exception) (epc : Word) : TrapRecord :=
  match e with
  | .overflow => ⟨.overflow, epc, none, none⟩
  | .addressError access addr => ⟨.addressError access, epc, some addr, none⟩
  | .systemCall => ⟨.systemCall, epc, none, none⟩
  | .reservedInstruction word => ⟨.reservedInstruction, epc, none, some word⟩

/-- Taking an exception (R176): the trap record is made and everything else, `pc` included, stays as before
the instruction. The machine has no mode, mask, vector or saved status to change (R178, R180, R181), and no
return from an exception (R178): the run has ended (R15 (1)). -/
def takeException (e : Exception) (s : State) : State := { s with trap := some (e.record s.pc) }

/-- `raise e` as the outcome of an instruction (spec/00_scope.md 5.3). -/
def raise (e : Exception) (s : State) : Result := .next (takeException e s)

/-! ### Memory -/

/-- The region holds the address. -/
def Region.covers (r : Region) (addr : Word) : Bool :=
  decide (r.base ≤ addr.toNat) && decide (addr.toNat < r.base + r.size)

/-- The address is in the set the regions stand for. -/
def covered (rs : List Region) (addr : Word) : Bool := rs.any (Region.covers · addr)

/-- The byte at `addr` is in `MEM_VALID` (R39). -/
def State.validAddr (s : State) (addr : Word) : Bool := covered s.params.memValid addr

/-- The byte at `addr` is in `TEXT` (R45). -/
def State.inText (s : State) (addr : Word) : Bool := covered s.params.text addr

/-- `MemByte(addr)` (spec/00_scope.md 5.3). -/
def State.memByte (s : State) (addr : Word) : Byte := s.mem.read addr

/-- `MemRead(addr, 2)` (R31). -/
def State.memHalf (s : State) (addr : Word) : Half :=
  joinHalf s.params.endian (s.memByte addr) (s.memByte (addr + 1#32))

/-- `MemRead(addr, 4)` (R31). -/
def State.memWord (s : State) (addr : Word) : Word :=
  joinWord s.params.endian (s.memByte addr) (s.memByte (addr + 1#32)) (s.memByte (addr + 2#32))
    (s.memByte (addr + 3#32))

/-- The refusal of an access to these bytes, if one of them is outside `MEM_VALID` (R39). -/
def refuseAccess (access : AccessKind) (addrs : List Word) (s : State) : Option Refusal :=
  (addrs.find? fun a => !s.validAddr a).map (.outsideMemory access ·)

/-- The refusal of a store to these bytes: outside `MEM_VALID` (R39) or inside `TEXT` (R45). The spec does not
order the two; log 11. -/
def refuseStore (addrs : List Word) (s : State) : Option Refusal :=
  (refuseAccess .store addrs s).or ((addrs.find? s.inText).map .storeIntoText)

/-- The refusal of a fetch of these bytes: outside `MEM_VALID` (R39) or outside `TEXT` (R45). -/
def refuseFetch (addrs : List Word) (s : State) : Option Refusal :=
  (refuseAccess .fetch addrs s).or ((addrs.find? fun a => !s.inText a).map .fetchOutsideText)

/-- A load of the value `v` from the bytes `addrs` into `x[rt]`: refused or done whole (R36, R38, R39). -/
def loadReg (rt : RegIdx) (addrs : List Word) (v : Word) (s : State) : Result :=
  match refuseAccess .load addrs s with
  | some r => .refused r
  | none => writeReg rt v s

/-- A store of these bytes as one indivisible access: refused or done whole (R38, R39, R45). -/
def storeBytes (cells : List (Word × Byte)) (s : State) : Result :=
  match refuseStore (cells.map (·.1)) s with
  | some r => .refused r
  | none => .next { s with mem := s.mem.writeCells cells }.advance

/-- The bytes that `MemWrite(addr, n, v)` writes, `v` in the low bits (R32). -/
def storedCells (e : Endian) (addr : Word) (n : Nat) (v : Word) : List (Word × Byte) :=
  (List.range n).map fun i => (addr + BitVec.ofNat 32 i, storedByte e n v i)

end Sys2Proof.Machine
end

