-- ==== Sys2Proof/Machine/Operands.lean ====
section
/-! DEFINITION. Operand forms: immediates, effective addresses, shift counts, branch and jump targets
(spec/30_encoding.md R55, R56). -/

namespace Sys2Proof.Machine

/-- `sext_32` of a 16-bit immediate (R55). -/
def sext (imm : Half) : Word := imm.signExtend 32

/-- `zext_32` of a 16-bit immediate (R55). -/
def zext (imm : Half) : Word := imm.zeroExtend 32

/-- `imm ++ 0x0000`, the operand of `lui` (R55, R82). -/
def upperImmediate (imm : Half) : Word := imm ++ 0x0000#16

/-- The address of a load or store, modulo 2^32 (R40, R120). -/
def effectiveAddress (s : State) (rs : RegIdx) (imm : Half) : Word := s.reg rs + sext imm

/-- An even address (R35). -/
def halfAligned (addr : Word) : Bool := addr.toNat % 2 == 0

/-- A multiple of four (R35). -/
def wordAligned (addr : Word) : Bool := addr.toNat % 4 == 0

/-- The count of a variable shift, the low five bits of the register (R56, R140 (c)). -/
def shiftCount (v : Word) : Nat := (v.extractLsb' 0 5).toNat

/-- `BranchTarget` of the branch at `pc` (R90; `BRANCH_BASE = next`, D3). -/
def branchTarget (pc : Word) (imm : Half) : Word := pc + 4#32 + (sext imm <<< 2)

/-- The target of the `j` or `jal` at `pc`: the region bits come from `pc + 4` (R110, D4). -/
def jumpTarget (pc : Word) (target : BitVec 26) : Word :=
  (pc + 4#32).extractLsb' 28 4 ++ target ++ 0b00#2

/-- The `imm` an assembler emits for the branch at `pc` to `label` (R57); the hardware does not use it. -/
def branchOffset (pc label : Word) : Half := (label - (pc + 4#32)).extractLsb' 2 16

/-- The label is one that a branch at `pc` can reach (R57). -/
def branchReaches (pc label : Word) : Bool :=
  let distance := (label - (pc + 4#32)).toInt
  decide (distance % 4 = 0) && decide (-131072 ≤ distance) && decide (distance ≤ 131068)

/-- The `target` an assembler emits for `j` or `jal` to `label` (R58); the hardware does not use it. -/
def jumpField (label : Word) : BitVec 26 := label.extractLsb' 2 26

/-- The label is one that a `j` or `jal` at `pc` can reach (R58). -/
def jumpReaches (pc label : Word) : Bool :=
  label.extractLsb' 0 2 == 0b00#2 && label.extractLsb' 28 4 == (pc + 4#32).extractLsb' 28 4

end Sys2Proof.Machine
end

