-- ==== Sys2Proof/Machine/Arithmetic.lean ====
section
/-! DEFINITION. Add and subtract (spec/40_arithmetic.md). -/

namespace Sys2Proof.Machine

/-- `x[r] <- v` unless the result overflows, which raises `Overflow` and writes nothing (R70, D7). -/
def writeRegTrapping (overflows : Bool) (r : RegIdx) (v : Word) (s : State) : Result :=
  if overflows then raise .overflow s else writeReg r v s

/-- R71. -/
def execAdd (rs rt rd : RegIdx) (s : State) : Result :=
  writeRegTrapping (addOverflows (s.reg rs) (s.reg rt)) rd (s.reg rs + s.reg rt) s

/-- R72. -/
def execAddi (rs rt : RegIdx) (imm : Half) (s : State) : Result :=
  writeRegTrapping (addOverflows (s.reg rs) (sext imm)) rt (s.reg rs + sext imm) s

/-- R73. -/
def execAddiu (rs rt : RegIdx) (imm : Half) (s : State) : Result := writeReg rt (s.reg rs + sext imm) s

/-- R74. -/
def execAddu (rs rt rd : RegIdx) (s : State) : Result := writeReg rd (s.reg rs + s.reg rt) s

/-- R75. -/
def execSub (rs rt rd : RegIdx) (s : State) : Result :=
  writeRegTrapping (subOverflows (s.reg rs) (s.reg rt)) rd (s.reg rs - s.reg rt) s

/-- R76. -/
def execSubu (rs rt rd : RegIdx) (s : State) : Result := writeReg rd (s.reg rs - s.reg rt) s

end Sys2Proof.Machine
end

