-- ==== Sys2Proof/Machine/Branch.lean ====
section
/-! DEFINITION. Conditional branches (spec/42_branch.md). -/

namespace Sys2Proof.Machine

/-- Taken or not taken (R90). -/
def branchIf (taken : Bool) (imm : Half) (s : State) : Result :=
  .next (if taken then s.jumpTo (branchTarget s.pc imm) else s.advance)

/-- The linking form: `x[31]` is written only when the branch is taken (R93, R96, D24). -/
def branchAndLinkIf (taken : Bool) (imm : Half) (s : State) : Result :=
  .next (if taken then (s.setReg .ra (s.pc + 4#32)).jumpTo (branchTarget s.pc imm) else s.advance)

/-- R91. -/
def execBeq (rs rt : RegIdx) (imm : Half) (s : State) : Result := branchIf (s.reg rs == s.reg rt) imm s

/-- R92. -/
def execBgez (rs : RegIdx) (imm : Half) (s : State) : Result := branchIf (decide (0 ≤ (s.reg rs).toInt)) imm s

/-- R93. -/
def execBgezal (rs : RegIdx) (imm : Half) (s : State) : Result :=
  branchAndLinkIf (decide (0 ≤ (s.reg rs).toInt)) imm s

/-- R94. -/
def execBgtz (rs : RegIdx) (imm : Half) (s : State) : Result := branchIf (decide (0 < (s.reg rs).toInt)) imm s

/-- R95. -/
def execBlez (rs : RegIdx) (imm : Half) (s : State) : Result := branchIf (decide ((s.reg rs).toInt ≤ 0)) imm s

/-- R96. -/
def execBltzal (rs : RegIdx) (imm : Half) (s : State) : Result :=
  branchAndLinkIf (decide ((s.reg rs).toInt < 0)) imm s

/-- R97. -/
def execBltz (rs : RegIdx) (imm : Half) (s : State) : Result := branchIf (decide ((s.reg rs).toInt < 0)) imm s

/-- R98. -/
def execBne (rs rt : RegIdx) (imm : Half) (s : State) : Result := branchIf (s.reg rs != s.reg rt) imm s

end Sys2Proof.Machine
end

