-- ==== Sys2Proof/Machine/Compare.lean ====
section
/-! DEFINITION. Set on less than (spec/48_compare.md). -/

namespace Sys2Proof.Machine

/-- R150. -/
def execSlt (rs rt rd : RegIdx) (s : State) : Result :=
  writeReg rd (boolWord (lessSigned (s.reg rs) (s.reg rt))) s

/-- R151. -/
def execSlti (rs rt : RegIdx) (imm : Half) (s : State) : Result :=
  writeReg rt (boolWord (lessSigned (s.reg rs) (sext imm))) s

/-- R152: sign-extended first, then compared unsigned. -/
def execSltui (rs rt : RegIdx) (imm : Half) (s : State) : Result :=
  writeReg rt (boolWord (lessUnsigned (s.reg rs) (sext imm))) s

/-- R153. -/
def execSltu (rs rt rd : RegIdx) (s : State) : Result :=
  writeReg rd (boolWord (lessUnsigned (s.reg rs) (s.reg rt))) s

end Sys2Proof.Machine
end

