-- ==== Sys2Proof/WellFormed.lean ====
section
/-! DEFINITION. Which instructions the spec gives a meaning to, as a check on the instruction alone. The
widths of the fields are in the types of `Instr`, so what is left to check is the one operand combination
that the spec declines (spec/44_jump.md R112, U4). -/

namespace Sys2Proof

/-- `jlr` may name one register twice only if it is register 0 (R112). -/
def jlrOperandsDefined (rs rd : RegIdx) : Bool := rd != rs || rd == 0#5

/-- The spec gives the instruction a meaning for some state. An ill-formed instruction still has an
encoding and still decodes; its execution is refused by name. -/
def Instr.wellFormed : Instr → Bool
  | .jlr rs rd => jlrOperandsDefined rs rd
  | .add .. | .addi .. | .addiu .. | .addu .. | .sub .. | .subu ..
  | .and .. | .andi .. | .lui .. | .nor .. | .or .. | .ori .. | .xor .. | .xori ..
  | .beq .. | .bgez .. | .bgezal .. | .bgtz .. | .blez .. | .bltzal .. | .bltz .. | .bne ..
  | .div .. | .divu .. | .mfhi .. | .mflo .. | .mthi .. | .mtlo .. | .mult .. | .multu ..
  | .j .. | .jal .. | .jr ..
  | .lb .. | .lbu .. | .lh .. | .lhu .. | .lw .. | .lwl .. | .lwr ..
  | .sb .. | .sh .. | .sw .. | .swl .. | .swr ..
  | .sll .. | .sllv .. | .sra .. | .srav .. | .srl .. | .srlv ..
  | .slt .. | .slti .. | .sltui .. | .sltu ..
  | .syscall .. => true

end Sys2Proof
end

