-- ==== Sys2Proof/Machine/Jump.lean ====
section
/-! DEFINITION. Jumps (spec/44_jump.md). -/

namespace Sys2Proof.Machine

/-- R110. -/
def execJ (target : BitVec 26) (s : State) : Result := .next (s.jumpTo (jumpTarget s.pc target))

/-- R111. -/
def execJal (target : BitVec 26) (s : State) : Result :=
  .next ((s.setReg .ra (s.pc + 4#32)).jumpTo (jumpTarget s.pc target))

/-- R112; one register named twice has no meaning unless it is register 0 (U4, D21). -/
def execJlr (rs rd : RegIdx) (s : State) : Result :=
  if jlrOperandsDefined rs rd then .next ((s.setReg rd (s.pc + 4#32)).jumpTo (s.reg rs))
  else .refused (.jlrSameRegister rd)

/-- R113. -/
def execJr (rs : RegIdx) (s : State) : Result := .next (s.jumpTo (s.reg rs))

end Sys2Proof.Machine
end

