-- ==== Sys2Proof/Machine/Load.lean ====
section
/-! DEFINITION. Loads (spec/45_load.md). -/

namespace Sys2Proof.Machine

/-- A one-byte load (R121, R122). -/
def loadByte (extend : Byte → Word) (rs rt : RegIdx) (imm : Half) (s : State) : Result :=
  let ea := effectiveAddress s rs imm
  loadReg rt (addressRange ea 1) (extend (s.memByte ea)) s

/-- A two-byte load; an odd address raises before memory is looked at (R35, R177). -/
def loadHalf (extend : Half → Word) (rs rt : RegIdx) (imm : Half) (s : State) : Result :=
  let ea := effectiveAddress s rs imm
  if halfAligned ea then loadReg rt (addressRange ea 2) (extend (s.memHalf ea)) s
  else raise (.addressError .load ea) s

/-- `lwl`'s new register: bytes `k .. 0` of the word above the low bytes of the register (R126). -/
def mergeLeft (k : Nat) (word reg : Word) : Word :=
  (word <<< (8 * (3 - k))) ||| (reg &&& ((1#32 <<< (8 * (3 - k))) - 1#32))

/-- `lwr`'s new register: bytes `3 .. k` of the word below the high bytes of the register (R127). -/
def mergeRight (k : Nat) (word reg : Word) : Word :=
  (word >>> (8 * k)) ||| (reg &&& ~~~(0xFFFFFFFF#32 >>> (8 * k)))

/-- The addresses of the bytes of significance 0 to `k` in the word of `ea`: what `lwl` and `swl` touch. -/
def leftAddresses (e : Endian) (ea : Word) : List Word :=
  (List.range (significance e ea + 1)).map fun j => significanceAddress e (wordBase ea) j

/-- The addresses of the bytes of significance `k` to 3 in the word of `ea`: what `lwr` and `swr` touch. -/
def rightAddresses (e : Endian) (ea : Word) : List Word :=
  (List.range (4 - significance e ea)).map fun i =>
    significanceAddress e (wordBase ea) (significance e ea + i)

/-- R121. -/
def execLb (rs rt : RegIdx) (imm : Half) (s : State) : Result := loadByte (·.signExtend 32) rs rt imm s

/-- R122. -/
def execLbu (rs rt : RegIdx) (imm : Half) (s : State) : Result := loadByte (·.zeroExtend 32) rs rt imm s

/-- R123. -/
def execLh (rs rt : RegIdx) (imm : Half) (s : State) : Result := loadHalf (·.signExtend 32) rs rt imm s

/-- R124. -/
def execLhu (rs rt : RegIdx) (imm : Half) (s : State) : Result := loadHalf (·.zeroExtend 32) rs rt imm s

/-- R125. -/
def execLw (rs rt : RegIdx) (imm : Half) (s : State) : Result :=
  let ea := effectiveAddress s rs imm
  if wordAligned ea then loadReg rt (addressRange ea 4) (s.memWord ea) s
  else raise (.addressError .load ea) s

/-- R126. Only the bytes of `leftAddresses` need to exist; the merge uses no other byte of the word. -/
def execLwl (rs rt : RegIdx) (imm : Half) (s : State) : Result :=
  let ea := effectiveAddress s rs imm
  let k := significance s.params.endian ea
  loadReg rt (leftAddresses s.params.endian ea) (mergeLeft k (s.memWord (wordBase ea)) (s.reg rt)) s

/-- R127. Only the bytes of `rightAddresses` need to exist; the merge uses no other byte of the word. -/
def execLwr (rs rt : RegIdx) (imm : Half) (s : State) : Result :=
  let ea := effectiveAddress s rs imm
  let k := significance s.params.endian ea
  loadReg rt (rightAddresses s.params.endian ea) (mergeRight k (s.memWord (wordBase ea)) (s.reg rt)) s

end Sys2Proof.Machine
end

