-- ==== Sys2Proof/Machine/Logical.lean ====
section
/-! DEFINITION. Logical instructions and `lui` (spec/41_logical.md). -/

namespace Sys2Proof.Machine

/-- R80. -/
def execAnd (rs rt rd : RegIdx) (s : State) : Result := writeReg rd (s.reg rs &&& s.reg rt) s

/-- R81. -/
def execAndi (rs rt : RegIdx) (imm : Half) (s : State) : Result := writeReg rt (s.reg rs &&& zext imm) s

/-- R82. -/
def execLui (rt : RegIdx) (imm : Half) (s : State) : Result := writeReg rt (upperImmediate imm) s

/-- R83. -/
def execNor (rs rt rd : RegIdx) (s : State) : Result := writeReg rd (~~~(s.reg rs ||| s.reg rt)) s

/-- R84. -/
def execOr (rs rt rd : RegIdx) (s : State) : Result := writeReg rd (s.reg rs ||| s.reg rt) s

/-- R85. -/
def execOri (rs rt : RegIdx) (imm : Half) (s : State) : Result := writeReg rt (s.reg rs ||| zext imm) s

/-- R86. -/
def execXor (rs rt rd : RegIdx) (s : State) : Result := writeReg rd (s.reg rs ^^^ s.reg rt) s

/-- R87. -/
def execXori (rs rt : RegIdx) (imm : Half) (s : State) : Result := writeReg rt (s.reg rs ^^^ zext imm) s

end Sys2Proof.Machine
end

