-- ==== Sys2Proof/Machine/MulDiv.lean ====
section
/-! DEFINITION. Multiply, divide and the HIGH/LOW moves (spec/43_muldiv.md). -/

namespace Sys2Proof.Machine

/-- HI and LO from the two halves of a 64-bit product (R106, R107). -/
def writeProduct (p : BitVec 64) (s : State) : Result :=
  writeHiLo (p.extractLsb' 32 32) (p.extractLsb' 0 32) s

/-- The signed quotient, rounded toward zero (R100). -/
def signedQuotient (n d : Int) : Int := n.sign * d.sign * ((n.natAbs / d.natAbs : Nat) : Int)

/-- The signed remainder (R100). -/
def signedRemainder (n d : Int) : Int := n - signedQuotient n d * d

/-- R100; a divisor of zero draws both results (U1), and -2^31 / -1 wraps (D18). -/
def execDiv (rs rt : RegIdx) (s : State) : Result :=
  let n := (s.reg rs).toInt
  let d := (s.reg rt).toInt
  if d = 0 then drawHiLo s
  else writeHiLo (BitVec.ofInt 32 (signedRemainder n d)) (BitVec.ofInt 32 (signedQuotient n d)) s

/-- R101; a divisor of zero draws both results (U1). -/
def execDivu (rs rt : RegIdx) (s : State) : Result :=
  let n := (s.reg rs).toNat
  let d := (s.reg rt).toNat
  if d = 0 then drawHiLo s else writeHiLo (BitVec.ofNat 32 (n % d)) (BitVec.ofNat 32 (n / d)) s

/-- R102. -/
def execMfhi (rd : RegIdx) (s : State) : Result := writeReg rd s.hi s

/-- R103. -/
def execMflo (rd : RegIdx) (s : State) : Result := writeReg rd s.lo s

/-- R104. -/
def execMthi (rs : RegIdx) (s : State) : Result := writeHiLo (s.reg rs) s.lo s

/-- R105. -/
def execMtlo (rs : RegIdx) (s : State) : Result := writeHiLo s.hi (s.reg rs) s

/-- R106. -/
def execMult (rs rt : RegIdx) (s : State) : Result :=
  writeProduct (BitVec.ofInt 64 ((s.reg rs).toInt * (s.reg rt).toInt)) s

/-- R107. -/
def execMultu (rs rt : RegIdx) (s : State) : Result :=
  writeProduct (BitVec.ofNat 64 ((s.reg rs).toNat * (s.reg rt).toNat)) s

end Sys2Proof.Machine
end

