-- ==== Sys2Proof/Machine/Shift.lean ====
section
/-! DEFINITION. Shifts (spec/47_shift.md). -/

namespace Sys2Proof.Machine

/-- R141. -/
def execSll (rt rd : RegIdx) (sa : BitVec 5) (s : State) : Result := writeReg rd (s.reg rt <<< sa.toNat) s

/-- R142. -/
def execSllv (rs rt rd : RegIdx) (s : State) : Result :=
  writeReg rd (s.reg rt <<< shiftCount (s.reg rs)) s

/-- R143. -/
def execSra (rt rd : RegIdx) (sa : BitVec 5) (s : State) : Result :=
  writeReg rd ((s.reg rt).sshiftRight sa.toNat) s

/-- R144. -/
def execSrav (rs rt rd : RegIdx) (s : State) : Result :=
  writeReg rd ((s.reg rt).sshiftRight (shiftCount (s.reg rs))) s

/-- R145. -/
def execSrl (rt rd : RegIdx) (sa : BitVec 5) (s : State) : Result := writeReg rd (s.reg rt >>> sa.toNat) s

/-- R146. -/
def execSrlv (rs rt rd : RegIdx) (s : State) : Result :=
  writeReg rd (s.reg rt >>> shiftCount (s.reg rs)) s

end Sys2Proof.Machine
end

