-- ==== Sys2Proof/Machine/Store.lean ====
section
/-! DEFINITION. Stores (spec/46_store.md). -/

namespace Sys2Proof.Machine

/-- What `swl` writes: the byte of significance `j` of the word of `ea`, for `j` from 0 to `k`, becomes byte
`3 - k + j` of the register (R133). -/
def leftCells (e : Endian) (ea reg : Word) : List (Word × Byte) :=
  let k := significance e ea
  (List.range (k + 1)).map fun j => (significanceAddress e (wordBase ea) j, byteOf reg (3 - k + j))

/-- What `swr` writes: the byte of significance `j` of the word of `ea`, for `j` from `k` to 3, becomes byte
`j - k` of the register (R134); here `j = k + i`. -/
def rightCells (e : Endian) (ea reg : Word) : List (Word × Byte) :=
  let k := significance e ea
  (List.range (4 - k)).map fun i => (significanceAddress e (wordBase ea) (k + i), byteOf reg i)

/-- R130. -/
def execSb (rs rt : RegIdx) (imm : Half) (s : State) : Result :=
  storeBytes (storedCells s.params.endian (effectiveAddress s rs imm) 1 (s.reg rt)) s

/-- R131. -/
def execSh (rs rt : RegIdx) (imm : Half) (s : State) : Result :=
  let ea := effectiveAddress s rs imm
  if halfAligned ea then storeBytes (storedCells s.params.endian ea 2 (s.reg rt)) s
  else raise (.addressError .store ea) s

/-- R132. -/
def execSw (rs rt : RegIdx) (imm : Half) (s : State) : Result :=
  let ea := effectiveAddress s rs imm
  if wordAligned ea then storeBytes (storedCells s.params.endian ea 4 (s.reg rt)) s
  else raise (.addressError .store ea) s

/-- R133. -/
def execSwl (rs rt : RegIdx) (imm : Half) (s : State) : Result :=
  storeBytes (leftCells s.params.endian (effectiveAddress s rs imm) (s.reg rt)) s

/-- R134. -/
def execSwr (rs rt : RegIdx) (imm : Half) (s : State) : Result :=
  storeBytes (rightCells s.params.endian (effectiveAddress s rs imm) (s.reg rt)) s

end Sys2Proof.Machine
end

