-- ==== Sys2Proof/Machine/System.lean ====
section
/-! DEFINITION. The system call (spec/49_system.md). -/

namespace Sys2Proof.Machine

/-- R160: always raises `SystemCall`; the code field is ignored (D27). -/
def execSyscall (_code : BitVec 20) (s : State) : Result := raise .systemCall s

end Sys2Proof.Machine
end

