-- ==== Sys2Proof/Machine/Dispatch.lean ====
section
/-! DEFINITION. The one place where an instruction is given its meaning (spec/10_state.md R15 (5)). -/

namespace Sys2Proof.Machine

def exec (i : Instr) (s : State) : Host.Outcome State Fault Refusal :=
  match i with
  | .add rs rt rd => Sys2Proof.Machine.execAdd rs rt rd s
  | .addi rs rt imm => Sys2Proof.Machine.execAddi rs rt imm s
  | .addiu rs rt imm => Sys2Proof.Machine.execAddiu rs rt imm s
  | .addu rs rt rd => Sys2Proof.Machine.execAddu rs rt rd s
  | .sub rs rt rd => Sys2Proof.Machine.execSub rs rt rd s
  | .subu rs rt rd => Sys2Proof.Machine.execSubu rs rt rd s
  | .and rs rt rd => Sys2Proof.Machine.execAnd rs rt rd s
  | .andi rs rt imm => Sys2Proof.Machine.execAndi rs rt imm s
  | .lui rt imm => Sys2Proof.Machine.execLui rt imm s
  | .nor rs rt rd => Sys2Proof.Machine.execNor rs rt rd s
  | .or rs rt rd => Sys2Proof.Machine.execOr rs rt rd s
  | .ori rs rt imm => Sys2Proof.Machine.execOri rs rt imm s
  | .xor rs rt rd => Sys2Proof.Machine.execXor rs rt rd s
  | .xori rs rt imm => Sys2Proof.Machine.execXori rs rt imm s
  | .beq rs rt imm => Sys2Proof.Machine.execBeq rs rt imm s
  | .bgez rs imm => Sys2Proof.Machine.execBgez rs imm s
  | .bgezal rs imm => Sys2Proof.Machine.execBgezal rs imm s
  | .bgtz rs imm => Sys2Proof.Machine.execBgtz rs imm s
  | .blez rs imm => Sys2Proof.Machine.execBlez rs imm s
  | .bltzal rs imm => Sys2Proof.Machine.execBltzal rs imm s
  | .bltz rs imm => Sys2Proof.Machine.execBltz rs imm s
  | .bne rs rt imm => Sys2Proof.Machine.execBne rs rt imm s
  | .div rs rt => Sys2Proof.Machine.execDiv rs rt s
  | .divu rs rt => Sys2Proof.Machine.execDivu rs rt s
  | .mfhi rd => Sys2Proof.Machine.execMfhi rd s
  | .mflo rd => Sys2Proof.Machine.execMflo rd s
  | .mthi rs => Sys2Proof.Machine.execMthi rs s
  | .mtlo rs => Sys2Proof.Machine.execMtlo rs s
  | .mult rs rt => Sys2Proof.Machine.execMult rs rt s
  | .multu rs rt => Sys2Proof.Machine.execMultu rs rt s
  | .j target => Sys2Proof.Machine.execJ target s
  | .jal target => Sys2Proof.Machine.execJal target s
  | .jlr rs rd => Sys2Proof.Machine.execJlr rs rd s
  | .jr rs => Sys2Proof.Machine.execJr rs s
  | .lb rs rt imm => Sys2Proof.Machine.execLb rs rt imm s
  | .lbu rs rt imm => Sys2Proof.Machine.execLbu rs rt imm s
  | .lh rs rt imm => Sys2Proof.Machine.execLh rs rt imm s
  | .lhu rs rt imm => Sys2Proof.Machine.execLhu rs rt imm s
  | .lw rs rt imm => Sys2Proof.Machine.execLw rs rt imm s
  | .lwl rs rt imm => Sys2Proof.Machine.execLwl rs rt imm s
  | .lwr rs rt imm => Sys2Proof.Machine.execLwr rs rt imm s
  | .sb rs rt imm => Sys2Proof.Machine.execSb rs rt imm s
  | .sh rs rt imm => Sys2Proof.Machine.execSh rs rt imm s
  | .sw rs rt imm => Sys2Proof.Machine.execSw rs rt imm s
  | .swl rs rt imm => Sys2Proof.Machine.execSwl rs rt imm s
  | .swr rs rt imm => Sys2Proof.Machine.execSwr rs rt imm s
  | .sll rt rd sa => Sys2Proof.Machine.execSll rt rd sa s
  | .sllv rs rt rd => Sys2Proof.Machine.execSllv rs rt rd s
  | .sra rt rd sa => Sys2Proof.Machine.execSra rt rd sa s
  | .srav rs rt rd => Sys2Proof.Machine.execSrav rs rt rd s
  | .srl rt rd sa => Sys2Proof.Machine.execSrl rt rd sa s
  | .srlv rs rt rd => Sys2Proof.Machine.execSrlv rs rt rd s
  | .slt rs rt rd => Sys2Proof.Machine.execSlt rs rt rd s
  | .slti rs rt imm => Sys2Proof.Machine.execSlti rs rt imm s
  | .sltui rs rt imm => Sys2Proof.Machine.execSltui rs rt imm s
  | .sltu rs rt rd => Sys2Proof.Machine.execSltu rs rt rd s
  | .syscall code => Sys2Proof.Machine.execSyscall code s

end Sys2Proof.Machine
end

