-- ==== Sys2Proof/Decode.lean ====
section
/-! DEFINITION. Decoding and encoding (spec/30_encoding.md R50 to R62) and the opcode table's masks (R60). -/

namespace Sys2Proof

open Machine

/-- Why a word is no instruction, by name (R61). Raised by the decoder only. Safe: the machine raises
`ReservedInstruction` on each of the first four (R173). -/
inductive DecodeError where
  /-- An Op-Code marked "every other value" in R59. -/
  | undefinedOpcode (op : BitVec 6)
  /-- A function code marked "every other value" in R59. -/
  | undefinedFunct (funct : BitVec 6)
  /-- A sub-opcode in the `rt` field marked "every other value" in R59. -/
  | undefinedSubOpcode (sub : BitVec 5)
  /-- The named instruction with a non-zero bit in a field it does not use (R61 (b)). -/
  | unusedFieldNonzero (mnemonic : String)
  /-- Fewer than four bytes: no instruction is shorter than a word (R50). -/
  | truncated (size : Nat)
  deriving DecidableEq, Repr

/-- Bits 31:26, the Op-Code (R51 to R53). -/
def opField (w : Word) : BitVec 6 := w.extractLsb' 26 6

/-- Bits 25:21 (R51, R52). -/
def rsField (w : Word) : RegIdx := w.extractLsb' 21 5

/-- Bits 20:16 (R51, R52). -/
def rtField (w : Word) : RegIdx := w.extractLsb' 16 5

/-- Bits 15:11 (R51). -/
def rdField (w : Word) : RegIdx := w.extractLsb' 11 5

/-- Bits 10:6, the shift amount (R51). -/
def saField (w : Word) : BitVec 5 := w.extractLsb' 6 5

/-- Bits 5:0, the function code (R51). -/
def functField (w : Word) : BitVec 6 := w.extractLsb' 0 6

/-- Bits 15:0 (R52). -/
def immField (w : Word) : Half := w.extractLsb' 0 16

/-- Bits 25:0 (R53). -/
def targetField (w : Word) : BitVec 26 := w.extractLsb' 0 26

/-- Bits 25:6, the code field of `syscall` (R160). -/
def codeField (w : Word) : BitVec 20 := w.extractLsb' 6 20

/-- The decoder's answer for a known operation: the instruction if every unused field is zero (R61 (b)). -/
def whenZero (unused : Bool) (mnemonic : String) (i : Instr) : Except DecodeError Instr :=
  if unused then .ok i else .error (.unusedFieldNonzero mnemonic)

/-- Op-Code `000000`: the function code chooses (R59, R60). -/
def decodeRFormat (w : Word) : Except DecodeError Instr :=
  match (functField w).toNat with
  | 0b000000 => whenZero (rsField w == 0#5) "sll" (.sll (rtField w) (rdField w) (saField w))
  | 0b000010 => whenZero (rsField w == 0#5) "srl" (.srl (rtField w) (rdField w) (saField w))
  | 0b000011 => whenZero (rsField w == 0#5) "sra" (.sra (rtField w) (rdField w) (saField w))
  | 0b000100 => whenZero (saField w == 0#5) "sllv" (.sllv (rsField w) (rtField w) (rdField w))
  | 0b000110 => whenZero (saField w == 0#5) "srlv" (.srlv (rsField w) (rtField w) (rdField w))
  | 0b000111 => whenZero (saField w == 0#5) "srav" (.srav (rsField w) (rtField w) (rdField w))
  | 0b001000 => whenZero (rtField w == 0#5 && rdField w == 0#5 && saField w == 0#5) "jr" (.jr (rsField w))
  | 0b001001 => whenZero (rtField w == 0#5 && saField w == 0#5) "jlr" (.jlr (rsField w) (rdField w))
  | 0b001100 => .ok (.syscall (codeField w))
  | 0b010000 => whenZero (rsField w == 0#5 && rtField w == 0#5 && saField w == 0#5) "mfhi" (.mfhi (rdField w))
  | 0b010001 => whenZero (rtField w == 0#5 && rdField w == 0#5 && saField w == 0#5) "mthi" (.mthi (rsField w))
  | 0b010010 => whenZero (rsField w == 0#5 && rtField w == 0#5 && saField w == 0#5) "mflo" (.mflo (rdField w))
  | 0b010011 => whenZero (rtField w == 0#5 && rdField w == 0#5 && saField w == 0#5) "mtlo" (.mtlo (rsField w))
  | 0b011000 => whenZero (rdField w == 0#5 && saField w == 0#5) "mult" (.mult (rsField w) (rtField w))
  | 0b011001 => whenZero (rdField w == 0#5 && saField w == 0#5) "multu" (.multu (rsField w) (rtField w))
  | 0b011010 => whenZero (rdField w == 0#5 && saField w == 0#5) "div" (.div (rsField w) (rtField w))
  | 0b011011 => whenZero (rdField w == 0#5 && saField w == 0#5) "divu" (.divu (rsField w) (rtField w))
  | 0b100000 => whenZero (saField w == 0#5) "add" (.add (rsField w) (rtField w) (rdField w))
  | 0b100001 => whenZero (saField w == 0#5) "addu" (.addu (rsField w) (rtField w) (rdField w))
  | 0b100010 => whenZero (saField w == 0#5) "sub" (.sub (rsField w) (rtField w) (rdField w))
  | 0b100011 => whenZero (saField w == 0#5) "subu" (.subu (rsField w) (rtField w) (rdField w))
  | 0b100100 => whenZero (saField w == 0#5) "and" (.and (rsField w) (rtField w) (rdField w))
  | 0b100101 => whenZero (saField w == 0#5) "or" (.or (rsField w) (rtField w) (rdField w))
  | 0b100110 => whenZero (saField w == 0#5) "xor" (.xor (rsField w) (rtField w) (rdField w))
  | 0b100111 => whenZero (saField w == 0#5) "nor" (.nor (rsField w) (rtField w) (rdField w))
  | 0b101010 => whenZero (saField w == 0#5) "slt" (.slt (rsField w) (rtField w) (rdField w))
  | 0b101011 => whenZero (saField w == 0#5) "sltu" (.sltu (rsField w) (rtField w) (rdField w))
  | _ => .error (.undefinedFunct (functField w))

/-- Op-Code `000001`: the `rt` field is a sub-opcode (R52, R59). -/
def decodeRegimm (w : Word) : Except DecodeError Instr :=
  match (rtField w).toNat with
  | 0b00000 => .ok (.bltz (rsField w) (immField w))
  | 0b00001 => .ok (.bgez (rsField w) (immField w))
  | 0b10000 => .ok (.bltzal (rsField w) (immField w))
  | 0b10001 => .ok (.bgezal (rsField w) (immField w))
  | _ => .error (.undefinedSubOpcode (rtField w))

/-- The instruction a 32-bit word spells, or the name of what is wrong with it (R59 to R61). -/
def decode (w : Word) : Except DecodeError Instr :=
  match (opField w).toNat with
  | 0b000000 => decodeRFormat w
  | 0b000001 => decodeRegimm w
  | 0b000010 => .ok (.j (targetField w))
  | 0b000011 => .ok (.jal (targetField w))
  | 0b000100 => .ok (.beq (rsField w) (rtField w) (immField w))
  | 0b000101 => .ok (.bne (rsField w) (rtField w) (immField w))
  | 0b000110 => whenZero (rtField w == 0#5) "blez" (.blez (rsField w) (immField w))
  | 0b000111 => whenZero (rtField w == 0#5) "bgtz" (.bgtz (rsField w) (immField w))
  | 0b001000 => .ok (.addi (rsField w) (rtField w) (immField w))
  | 0b001001 => .ok (.addiu (rsField w) (rtField w) (immField w))
  | 0b001010 => .ok (.slti (rsField w) (rtField w) (immField w))
  | 0b001011 => .ok (.sltui (rsField w) (rtField w) (immField w))
  | 0b001100 => .ok (.andi (rsField w) (rtField w) (immField w))
  | 0b001101 => .ok (.ori (rsField w) (rtField w) (immField w))
  | 0b001110 => .ok (.xori (rsField w) (rtField w) (immField w))
  | 0b001111 => whenZero (rsField w == 0#5) "lui" (.lui (rtField w) (immField w))
  | 0b100000 => .ok (.lb (rsField w) (rtField w) (immField w))
  | 0b100001 => .ok (.lh (rsField w) (rtField w) (immField w))
  | 0b100010 => .ok (.lwl (rsField w) (rtField w) (immField w))
  | 0b100011 => .ok (.lw (rsField w) (rtField w) (immField w))
  | 0b100100 => .ok (.lbu (rsField w) (rtField w) (immField w))
  | 0b100101 => .ok (.lhu (rsField w) (rtField w) (immField w))
  | 0b100110 => .ok (.lwr (rsField w) (rtField w) (immField w))
  | 0b101000 => .ok (.sb (rsField w) (rtField w) (immField w))
  | 0b101001 => .ok (.sh (rsField w) (rtField w) (immField w))
  | 0b101010 => .ok (.swl (rsField w) (rtField w) (immField w))
  | 0b101011 => .ok (.sw (rsField w) (rtField w) (immField w))
  | 0b101110 => .ok (.swr (rsField w) (rtField w) (immField w))
  | _ => .error (.undefinedOpcode (opField w))

/-- Decoding from bytes at ascending addresses in the given byte order (R33); total on any bytes. Only
the first four are read, since every instruction is one word (R50). -/
def decodeBytes (e : Endian) : List Byte → Except DecodeError Instr
  | b0 :: b1 :: b2 :: b3 :: _ => decode (joinWord e b0 b1 b2 b3)
  | bs => .error (.truncated bs.length)

/-- An R-format word (R51). -/
def rFormat (rs rt rd sa : BitVec 5) (funct : BitVec 6) : Word :=
  0b000000#6 ++ rs ++ rt ++ rd ++ sa ++ funct

/-- An I-format word (R52). -/
def iFormat (op : BitVec 6) (rs rt : BitVec 5) (imm : Half) : Word := op ++ rs ++ rt ++ imm

/-- A J-format word (R53). -/
def jFormat (op : BitVec 6) (target : BitVec 26) : Word := op ++ target

/-- The `syscall` word with its code field (R160). -/
def syscallFormat (code : BitVec 20) : Word := 0b000000#6 ++ code ++ 0b001100#6

/-- The word of an instruction (R51 to R53, R59). -/
def encode : Instr → Word
  | .add rs rt rd => rFormat rs rt rd 0 0b100000#6
  | .addi rs rt imm => iFormat 0b001000#6 rs rt imm
  | .addiu rs rt imm => iFormat 0b001001#6 rs rt imm
  | .addu rs rt rd => rFormat rs rt rd 0 0b100001#6
  | .sub rs rt rd => rFormat rs rt rd 0 0b100010#6
  | .subu rs rt rd => rFormat rs rt rd 0 0b100011#6
  | .and rs rt rd => rFormat rs rt rd 0 0b100100#6
  | .andi rs rt imm => iFormat 0b001100#6 rs rt imm
  | .lui rt imm => iFormat 0b001111#6 0 rt imm
  | .nor rs rt rd => rFormat rs rt rd 0 0b100111#6
  | .or rs rt rd => rFormat rs rt rd 0 0b100101#6
  | .ori rs rt imm => iFormat 0b001101#6 rs rt imm
  | .xor rs rt rd => rFormat rs rt rd 0 0b100110#6
  | .xori rs rt imm => iFormat 0b001110#6 rs rt imm
  | .beq rs rt imm => iFormat 0b000100#6 rs rt imm
  | .bgez rs imm => iFormat 0b000001#6 rs 0b00001#5 imm
  | .bgezal rs imm => iFormat 0b000001#6 rs 0b10001#5 imm
  | .bgtz rs imm => iFormat 0b000111#6 rs 0 imm
  | .blez rs imm => iFormat 0b000110#6 rs 0 imm
  | .bltzal rs imm => iFormat 0b000001#6 rs 0b10000#5 imm
  | .bltz rs imm => iFormat 0b000001#6 rs 0b00000#5 imm
  | .bne rs rt imm => iFormat 0b000101#6 rs rt imm
  | .div rs rt => rFormat rs rt 0 0 0b011010#6
  | .divu rs rt => rFormat rs rt 0 0 0b011011#6
  | .mfhi rd => rFormat 0 0 rd 0 0b010000#6
  | .mflo rd => rFormat 0 0 rd 0 0b010010#6
  | .mthi rs => rFormat rs 0 0 0 0b010001#6
  | .mtlo rs => rFormat rs 0 0 0 0b010011#6
  | .mult rs rt => rFormat rs rt 0 0 0b011000#6
  | .multu rs rt => rFormat rs rt 0 0 0b011001#6
  | .j target => jFormat 0b000010#6 target
  | .jal target => jFormat 0b000011#6 target
  | .jlr rs rd => rFormat rs 0 rd 0 0b001001#6
  | .jr rs => rFormat rs 0 0 0 0b001000#6
  | .lb rs rt imm => iFormat 0b100000#6 rs rt imm
  | .lbu rs rt imm => iFormat 0b100100#6 rs rt imm
  | .lh rs rt imm => iFormat 0b100001#6 rs rt imm
  | .lhu rs rt imm => iFormat 0b100101#6 rs rt imm
  | .lw rs rt imm => iFormat 0b100011#6 rs rt imm
  | .lwl rs rt imm => iFormat 0b100010#6 rs rt imm
  | .lwr rs rt imm => iFormat 0b100110#6 rs rt imm
  | .sb rs rt imm => iFormat 0b101000#6 rs rt imm
  | .sh rs rt imm => iFormat 0b101001#6 rs rt imm
  | .sw rs rt imm => iFormat 0b101011#6 rs rt imm
  | .swl rs rt imm => iFormat 0b101010#6 rs rt imm
  | .swr rs rt imm => iFormat 0b101110#6 rs rt imm
  | .sll rt rd sa => rFormat 0 rt rd sa 0b000000#6
  | .sllv rs rt rd => rFormat rs rt rd 0 0b000100#6
  | .sra rt rd sa => rFormat 0 rt rd sa 0b000011#6
  | .srav rs rt rd => rFormat rs rt rd 0 0b000111#6
  | .srl rt rd sa => rFormat 0 rt rd sa 0b000010#6
  | .srlv rs rt rd => rFormat rs rt rd 0 0b000110#6
  | .slt rs rt rd => rFormat rs rt rd 0 0b101010#6
  | .slti rs rt imm => iFormat 0b001010#6 rs rt imm
  | .sltui rs rt imm => iFormat 0b001011#6 rs rt imm
  | .sltu rs rt rd => rFormat rs rt rd 0 0b101011#6
  | .syscall code => syscallFormat code

/-- A row of the opcode table: a word `w` spells it exactly when `w AND mask = pattern` (R60; the table
calls the pattern `match`). -/
structure OpcodeRow where
  mnemonic : String
  pattern : Word
  mask : Word
  deriving DecidableEq, Repr

/-- The row of an instruction, copied from spec/opcode_table.json. The decoder does not use it. -/
def Instr.opcodeRow : Instr → OpcodeRow
  | .add .. => ⟨"add", 0x00000020#32, 0xFC0007FF#32⟩
  | .addi .. => ⟨"addi", 0x20000000#32, 0xFC000000#32⟩
  | .addiu .. => ⟨"addiu", 0x24000000#32, 0xFC000000#32⟩
  | .addu .. => ⟨"addu", 0x00000021#32, 0xFC0007FF#32⟩
  | .sub .. => ⟨"sub", 0x00000022#32, 0xFC0007FF#32⟩
  | .subu .. => ⟨"subu", 0x00000023#32, 0xFC0007FF#32⟩
  | .and .. => ⟨"and", 0x00000024#32, 0xFC0007FF#32⟩
  | .andi .. => ⟨"andi", 0x30000000#32, 0xFC000000#32⟩
  | .lui .. => ⟨"lui", 0x3C000000#32, 0xFFE00000#32⟩
  | .nor .. => ⟨"nor", 0x00000027#32, 0xFC0007FF#32⟩
  | .or .. => ⟨"or", 0x00000025#32, 0xFC0007FF#32⟩
  | .ori .. => ⟨"ori", 0x34000000#32, 0xFC000000#32⟩
  | .xor .. => ⟨"xor", 0x00000026#32, 0xFC0007FF#32⟩
  | .xori .. => ⟨"xori", 0x38000000#32, 0xFC000000#32⟩
  | .beq .. => ⟨"beq", 0x10000000#32, 0xFC000000#32⟩
  | .bgez .. => ⟨"bgez", 0x04010000#32, 0xFC1F0000#32⟩
  | .bgezal .. => ⟨"bgezal", 0x04110000#32, 0xFC1F0000#32⟩
  | .bgtz .. => ⟨"bgtz", 0x1C000000#32, 0xFC1F0000#32⟩
  | .blez .. => ⟨"blez", 0x18000000#32, 0xFC1F0000#32⟩
  | .bltzal .. => ⟨"bltzal", 0x04100000#32, 0xFC1F0000#32⟩
  | .bltz .. => ⟨"bltz", 0x04000000#32, 0xFC1F0000#32⟩
  | .bne .. => ⟨"bne", 0x14000000#32, 0xFC000000#32⟩
  | .div .. => ⟨"div", 0x0000001A#32, 0xFC00FFFF#32⟩
  | .divu .. => ⟨"divu", 0x0000001B#32, 0xFC00FFFF#32⟩
  | .mfhi .. => ⟨"mfhi", 0x00000010#32, 0xFFFF07FF#32⟩
  | .mflo .. => ⟨"mflo", 0x00000012#32, 0xFFFF07FF#32⟩
  | .mthi .. => ⟨"mthi", 0x00000011#32, 0xFC1FFFFF#32⟩
  | .mtlo .. => ⟨"mtlo", 0x00000013#32, 0xFC1FFFFF#32⟩
  | .mult .. => ⟨"mult", 0x00000018#32, 0xFC00FFFF#32⟩
  | .multu .. => ⟨"multu", 0x00000019#32, 0xFC00FFFF#32⟩
  | .j .. => ⟨"j", 0x08000000#32, 0xFC000000#32⟩
  | .jal .. => ⟨"jal", 0x0C000000#32, 0xFC000000#32⟩
  | .jlr .. => ⟨"jlr", 0x00000009#32, 0xFC1F07FF#32⟩
  | .jr .. => ⟨"jr", 0x00000008#32, 0xFC1FFFFF#32⟩
  | .lb .. => ⟨"lb", 0x80000000#32, 0xFC000000#32⟩
  | .lbu .. => ⟨"lbu", 0x90000000#32, 0xFC000000#32⟩
  | .lh .. => ⟨"lh", 0x84000000#32, 0xFC000000#32⟩
  | .lhu .. => ⟨"lhu", 0x94000000#32, 0xFC000000#32⟩
  | .lw .. => ⟨"lw", 0x8C000000#32, 0xFC000000#32⟩
  | .lwl .. => ⟨"lwl", 0x88000000#32, 0xFC000000#32⟩
  | .lwr .. => ⟨"lwr", 0x98000000#32, 0xFC000000#32⟩
  | .sb .. => ⟨"sb", 0xA0000000#32, 0xFC000000#32⟩
  | .sh .. => ⟨"sh", 0xA4000000#32, 0xFC000000#32⟩
  | .sw .. => ⟨"sw", 0xAC000000#32, 0xFC000000#32⟩
  | .swl .. => ⟨"swl", 0xA8000000#32, 0xFC000000#32⟩
  | .swr .. => ⟨"swr", 0xB8000000#32, 0xFC000000#32⟩
  | .sll .. => ⟨"sll", 0x00000000#32, 0xFFE0003F#32⟩
  | .sllv .. => ⟨"sllv", 0x00000004#32, 0xFC0007FF#32⟩
  | .sra .. => ⟨"sra", 0x00000003#32, 0xFFE0003F#32⟩
  | .srav .. => ⟨"srav", 0x00000007#32, 0xFC0007FF#32⟩
  | .srl .. => ⟨"srl", 0x00000002#32, 0xFFE0003F#32⟩
  | .srlv .. => ⟨"srlv", 0x00000006#32, 0xFC0007FF#32⟩
  | .slt .. => ⟨"slt", 0x0000002A#32, 0xFC0007FF#32⟩
  | .slti .. => ⟨"slti", 0x28000000#32, 0xFC000000#32⟩
  | .sltui .. => ⟨"sltui", 0x2C000000#32, 0xFC000000#32⟩
  | .sltu .. => ⟨"sltu", 0x0000002B#32, 0xFC0007FF#32⟩
  | .syscall .. => ⟨"syscall", 0x0000000C#32, 0xFC00003F#32⟩

/-- One instruction of each row, all its fields zero. -/
def sampleInstrs : List Instr :=
  [.add 0 0 0, .addi 0 0 0, .addiu 0 0 0, .addu 0 0 0, .sub 0 0 0, .subu 0 0 0] ++
  [.and 0 0 0, .andi 0 0 0, .lui 0 0, .nor 0 0 0, .or 0 0 0, .ori 0 0 0, .xor 0 0 0, .xori 0 0 0] ++
  [.beq 0 0 0, .bgez 0 0, .bgezal 0 0, .bgtz 0 0, .blez 0 0, .bltzal 0 0, .bltz 0 0, .bne 0 0 0] ++
  [.div 0 0, .divu 0 0, .mfhi 0, .mflo 0, .mthi 0, .mtlo 0, .mult 0 0, .multu 0 0] ++
  [.j 0, .jal 0, .jlr 0 0, .jr 0] ++
  [.lb 0 0 0, .lbu 0 0 0, .lh 0 0 0, .lhu 0 0 0, .lw 0 0 0, .lwl 0 0 0, .lwr 0 0 0] ++
  [.sb 0 0 0, .sh 0 0 0, .sw 0 0 0, .swl 0 0 0, .swr 0 0 0] ++
  [.sll 0 0 0, .sllv 0 0 0, .sra 0 0 0, .srav 0 0 0, .srl 0 0 0, .srlv 0 0 0] ++
  [.slt 0 0 0, .slti 0 0 0, .sltui 0 0 0, .sltu 0 0 0] ++
  [.syscall 0]

/-- The 57 rows of spec/opcode_table.json. -/
def opcodeRows : List OpcodeRow := sampleInstrs.map Instr.opcodeRow

/-- What the decoder reads from an instruction whose bits are `w` (bit 0 the least significant bit of the
first word, bits from `nbits` up zero): the word is laid out as bytes and decoded from them. -/
def decodeTableWord (nbits w : Nat) : Option Instr :=
  (decodeBytes .little (wordBytes .little (BitVec.ofNat 32 (w % 2 ^ nbits)))).toOption

end Sys2Proof
end

