-- ==== Sys2Proof/Machine/Fetch.lean ====
section
/-! DEFINITION. Fetching and decoding the next instruction (spec/10_state.md R15 (2) to (4), R16;
spec/20_memory.md R33, R45; spec/60_exceptions.md R177), and placing a word where it is fetched. -/

namespace Sys2Proof.Machine

/-- What the fetch and decode steps answer. -/
inductive Fetched where
  | instr (i : Instr)
  | exception (e : Exception)
  | refusal (r : Refusal)
  deriving DecidableEq, Repr

/-- R15 (2) to (4), in the order of R177: alignment of `pc`, then the refusal, then the decode. -/
def fetchInstr (s : State) : Fetched :=
  if wordAligned s.pc then
    match refuseFetch (addressRange s.pc 4) s with
    | some r => .refusal r
    | none =>
      match decode (s.memWord s.pc) with
      | .ok i => .instr i
      | .error _ => .exception (.reservedInstruction (s.memWord s.pc))
  else .exception (.addressError .fetch s.pc)

/-- The regions with the four bytes at `addr` added, if they are not all there yet. -/
def withWordRegion (rs : List Region) (addr : Word) : List Region :=
  if (addressRange addr 4).all (covered rs) then rs else ⟨addr.toNat, 4⟩ :: rs

/-- A run about to execute the word `w`: no trap, `pc` rounded down to a multiple of 4, the word's bytes at
`pc`, and those bytes in `MEM_VALID` and `TEXT`. It stands for the load of a program (log 7). -/
def placeWord (s : State) (w : Word) : State :=
  let pc := wordBase s.pc
  { s with
    pc := pc
    trap := none
    mem := s.mem.writeCells (storedCells s.params.endian pc 4 w)
    params := { s.params with
      memValid := withWordRegion s.params.memValid pc
      text := withWordRegion s.params.text pc } }

end Sys2Proof.Machine
end

