-- ==== Sys2Proof/Machine/Step.lean ====
section
/-! DEFINITION. One step of the machine (spec/10_state.md R15). -/

namespace Sys2Proof.Machine

/-- R15: no step after a trap; then fetch and decode, which may raise; then the instruction, whose meaning
sets the next `pc` itself. -/
def step (s : State) : Host.Outcome State Fault Refusal :=
  match s.trap with
  | some _ => .fault .runEnded
  | none =>
    match fetchInstr s with
    | .instr i => exec i s
    | .exception e => raise e s
    | .refusal r => .refused r

/-- The state with the instruction of bits `w` stored where `step` fetches it (log 7). -/
def State.withFetchWord (s : State) (nbits w : Nat) : State :=
  placeWord s (BitVec.ofNat 32 (w % 2 ^ nbits))

end Sys2Proof.Machine
end

