-- ==== Sys2Proof/Machine/Launch.lean ====
section
/-! DEFINITION. The launch of a run with any parameters (spec/70_reset_and_hazards.md R190 to R192,
spec/10_state.md R24). `State.reset` is one such launch, with nothing loaded. -/

namespace Sys2Proof.Machine

/-- What the caller supplies (R192). The type does not enforce the conditions R5, R190 and R192 put on it; log 17. -/
structure Launch where
  /-- `ENDIAN`, `MEM_VALID`, `TEXT`. -/
  params : Params
  /-- `ENTRY`. -/
  entry : Word
  /-- `INIT_MEM`; of two cells at one address the later stands. -/
  initMem : List (Word × Byte)
  /-- `INIT_REGS` for the general registers it sets. -/
  initRegs : List (RegIdx × Word)
  /-- `INIT_REGS` for HI. -/
  initHi : Option Word
  /-- `INIT_REGS` for LO. -/
  initLo : Option Word
  deriving DecidableEq, Repr

/-- The launch value of register `r`: 0 for register 0, what the caller sets, else a free value (R24, U7). -/
def Launch.regValue (l : Launch) (r : RegIdx) : Word :=
  if r = 0#5 then 0#32 else (l.initRegs.lookup r).getD (Config.unsetRegister r.toNat)

/-- The launch state (R190). DESIGN CHOICE, unsafe, log 17: a launch outside R5's types (`ENTRY` no multiple of 4,
`TEXT` not inside `MEM_VALID`) or against R190 and R192 (`ENTRY` outside `TEXT`, `TEXT` not made of whole aligned
words), to which the spec gives no meaning, is accepted unchecked; the conditions are left to the caller. -/
def State.launch (l : Launch) : State where
  regs := Vector.ofFn fun i => l.regValue (BitVec.ofNat 5 i.val)
  pc := l.entry
  hi := l.initHi.getD (Config.unsetRegister 32)
  lo := l.initLo.getD (Config.unsetRegister 33)
  mem := Memory.writeCells [] l.initMem
  trap := none
  params := l.params
  draws := 0

/-- The launch that reset is: every register set to 0, the whole address space valid, no program (log 2 to 7). -/
def Launch.reset : Launch where
  params := ⟨.little, [⟨0, 2 ^ 32⟩], []⟩
  entry := 0x00400000#32
  initMem := []
  initRegs := (List.range 32).map fun i => (BitVec.ofNat 5 i, 0#32)
  initHi := some 0#32
  initLo := some 0#32

end Sys2Proof.Machine
end

