-- ==== Sys2Proof/Safety.lean ====
section
/-! DEFINITION. The terms claims are made in: what an instruction's whole effect is, as what can be read of
the state afterwards; the spec's tables of what an instruction may write or raise; the invariant of every
state of a run; and a run that is never refused. -/

namespace Sys2Proof

open Machine

/-! ### Whole effects -/

/-- What no instruction but a raising one and a zero division touches, and memory. -/
structure Untouched (s t : State) : Prop where
  mem : ∀ a, t.memByte a = s.memByte a
  trap : t.trap = s.trap
  params : t.params = s.params
  draws : t.draws = s.draws

/-- The whole effect is `x[rd] <- v` and `pc <- pc + 4`; with `rd = 0` nothing is written (R11, R15). -/
structure RegWritten (s t : State) (rd : RegIdx) (v : Word) : Prop extends Untouched s t where
  reg : ∀ r, t.reg r = if r = rd ∧ r ≠ 0#5 then v else s.reg r
  pc : t.pc = s.pc + 4#32
  hi : t.hi = s.hi
  lo : t.lo = s.lo

/-- The whole effect is on HI and LO, and `pc <- pc + 4`. -/
structure HiLoWritten (s t : State) (hi lo : Word) : Prop extends Untouched s t where
  reg : ∀ r, t.reg r = s.reg r
  pc : t.pc = s.pc + 4#32
  hi : t.hi = hi
  lo : t.lo = lo

/-- The whole effect is that HI and LO take two fresh free values (R100, R101, U1), and `pc <- pc + 4`. -/
structure HiLoDrawn (s t : State) : Prop where
  lo : t.lo = Config.draw s.draws
  hi : t.hi = Config.draw (s.draws + 1)
  draws : t.draws = s.draws + 2
  reg : ∀ r, t.reg r = s.reg r
  pc : t.pc = s.pc + 4#32
  mem : ∀ a, t.memByte a = s.memByte a
  trap : t.trap = s.trap
  params : t.params = s.params

/-- The whole effect is `pc <- target`. -/
structure Transferred (s t : State) (target : Word) : Prop extends Untouched s t where
  reg : ∀ r, t.reg r = s.reg r
  pc : t.pc = target
  hi : t.hi = s.hi
  lo : t.lo = s.lo

/-- The whole effect is `x[rd] <- link` and `pc <- target`. -/
structure Linked (s t : State) (rd : RegIdx) (link target : Word) : Prop extends Untouched s t where
  reg : ∀ r, t.reg r = if r = rd ∧ r ≠ 0#5 then link else s.reg r
  pc : t.pc = target
  hi : t.hi = s.hi
  lo : t.lo = s.lo

/-- The whole effect is that the `n` bytes from `addr` up (modulo 2^32) become `b 0`, …, `b (n - 1)`, and
`pc <- pc + 4`. -/
structure Stored (s t : State) (addr : Word) (n : Nat) (b : Nat → Byte) : Prop where
  bytes : ∀ i < n, t.memByte (addr + BitVec.ofNat 32 i) = b i
  others : ∀ a, (∀ i < n, a ≠ addr + BitVec.ofNat 32 i) → t.memByte a = s.memByte a
  reg : ∀ r, t.reg r = s.reg r
  pc : t.pc = s.pc + 4#32
  hi : t.hi = s.hi
  lo : t.lo = s.lo
  trap : t.trap = s.trap
  params : t.params = s.params
  draws : t.draws = s.draws

/-- The whole effect is the trap record (R176). -/
structure Trapped (s t : State) (r : TrapRecord) : Prop where
  trap : t.trap = some r
  mem : ∀ a, t.memByte a = s.memByte a
  params : t.params = s.params
  draws : t.draws = s.draws
  reg : ∀ r, t.reg r = s.reg r
  pc : t.pc = s.pc
  hi : t.hi = s.hi
  lo : t.lo = s.lo

/-- The `n` bytes from `addr` up are all in `MEM_VALID`. -/
def BytesValid (s : State) (addr : Word) (n : Nat) : Prop :=
  ∀ i < n, s.validAddr (addr + BitVec.ofNat 32 i) = true

/-- The `n` bytes from `addr` up are all in `MEM_VALID` and none is in `TEXT`: a store to them is performed. -/
def BytesWritable (s : State) (addr : Word) (n : Nat) : Prop :=
  ∀ i < n, s.validAddr (addr + BitVec.ofNat 32 i) = true ∧ s.inText (addr + BitVec.ofNat 32 i) = false

/-- The exact integer is the two's-complement reading of some 32-bit string (R70). -/
def FitsSigned (n : Int) : Prop := -2 ^ 31 ≤ n ∧ n ≤ 2 ^ 31 - 1

/-- Where a branch at `pc` goes when taken: `imm` counts words from the next instruction (R90). -/
def wordsAhead (pc : Word) (imm : Half) : Word := BitVec.ofInt 32 (pc.toNat + 4 + 4 * imm.toInt)

/-- The lowest address of the bytes of significance 0 to `k` of the word of `ea`, `k` that of `ea` (R126, R133). -/
def leftStart (e : Endian) (ea : Word) : Word :=
  match e with
  | .little => wordBase ea
  | .big => ea

/-- The lowest address of the bytes of significance `k` to 3 of the word of `ea`, `k` that of `ea` (R127, R134). -/
def rightStart (e : Endian) (ea : Word) : Word :=
  match e with
  | .little => ea
  | .big => wordBase ea

/-- The word at `pc` can be fetched (R15, R45). -/
def Fetchable (s : State) : Prop :=
  s.pc.toNat % 4 = 0 ∧
    ∀ i < 4, s.validAddr (s.pc + BitVec.ofNat 32 i) = true ∧ s.inText (s.pc + BitVec.ofNat 32 i) = true

/-- The word is decoded as the instruction, and the instruction encoded as the word. -/
def Spells (w : Word) (i : Instr) : Prop := decode w = .ok i ∧ encode i = w

/-! ### Tables of the spec -/

/-- The register an instruction may write (R13). -/
def Instr.destination : Instr → Option RegIdx
  | .add _ _ rd | .addu _ _ rd | .sub _ _ rd | .subu _ _ rd | .and _ _ rd | .or _ _ rd | .xor _ _ rd
  | .nor _ _ rd | .slt _ _ rd | .sltu _ _ rd | .sll _ rd _ | .srl _ rd _ | .sra _ rd _ | .sllv _ _ rd
  | .srlv _ _ rd | .srav _ _ rd | .mfhi rd | .mflo rd | .jlr _ rd => some rd
  | .addi _ rt _ | .addiu _ rt _ | .slti _ rt _ | .sltui _ rt _ | .andi _ rt _ | .ori _ rt _ | .xori _ rt _
  | .lui rt _ | .lb _ rt _ | .lbu _ rt _ | .lh _ rt _ | .lhu _ rt _ | .lw _ rt _ | .lwl _ rt _
  | .lwr _ rt _ => some rt
  | .jal .. | .bgezal .. | .bltzal .. => some .ra
  | .beq .. | .bne .. | .bgez .. | .bgtz .. | .blez .. | .bltz .. | .j .. | .jr .. | .mthi .. | .mtlo ..
  | .mult .. | .multu .. | .div .. | .divu .. | .sb .. | .sh .. | .sw .. | .swl .. | .swr ..
  | .syscall .. => none

/-- The one exception an instruction can raise itself (R174). -/
def Instr.canRaise : Instr → Option TrapKind
  | .add .. | .addi .. | .sub .. => some .overflow
  | .lh .. | .lhu .. | .lw .. => some (.addressError .load)
  | .sh .. | .sw .. => some (.addressError .store)
  | .syscall .. => some .systemCall
  | .addiu .. | .addu .. | .subu .. | .and .. | .andi .. | .lui .. | .nor .. | .or .. | .ori .. | .xor ..
  | .xori .. | .beq .. | .bgez .. | .bgezal .. | .bgtz .. | .blez .. | .bltzal .. | .bltz .. | .bne ..
  | .div .. | .divu .. | .mfhi .. | .mflo .. | .mthi .. | .mtlo .. | .mult .. | .multu .. | .j .. | .jal ..
  | .jlr .. | .jr .. | .lb .. | .lbu .. | .lwl .. | .lwr .. | .sb .. | .swl .. | .swr .. | .sll .. | .sllv ..
  | .sra .. | .srav .. | .srl .. | .srlv .. | .slt .. | .slti .. | .sltui .. | .sltu .. => none

/-- The base register and offset of the address that an instruction accesses, if it is a load or store (R120). -/
def Instr.memoryOperand : Instr → Option (RegIdx × Half)
  | .lb rs _ imm | .lbu rs _ imm | .lh rs _ imm | .lhu rs _ imm | .lw rs _ imm | .lwl rs _ imm | .lwr rs _ imm
  | .sb rs _ imm | .sh rs _ imm | .sw rs _ imm | .swl rs _ imm | .swr rs _ imm => some (rs, imm)
  | .add .. | .addi .. | .addiu .. | .addu .. | .sub .. | .subu .. | .and .. | .andi .. | .lui .. | .nor ..
  | .or .. | .ori .. | .xor .. | .xori .. | .beq .. | .bgez .. | .bgezal .. | .bgtz .. | .blez .. | .bltzal ..
  | .bltz .. | .bne .. | .div .. | .divu .. | .mfhi .. | .mflo .. | .mthi .. | .mtlo .. | .mult .. | .multu ..
  | .j .. | .jal .. | .jlr .. | .jr .. | .sll .. | .sllv .. | .sra .. | .srav .. | .srl .. | .srlv .. | .slt ..
  | .slti .. | .sltui .. | .sltu .. | .syscall .. => none

/-- What an instruction has to do with HI and LO, and with memory. -/
inductive Reach where
  /-- `mult multu div divu mfhi mflo mthi mtlo` (R18). -/
  | hiLo
  /-- The seven loads (R22). -/
  | load
  /-- The five stores (R22). -/
  | store
  /-- Every other instruction. -/
  | neither
  deriving DecidableEq, Repr

/-- R18, R22. -/
def Instr.reach : Instr → Reach
  | .mult .. | .multu .. | .div .. | .divu .. | .mfhi .. | .mflo .. | .mthi .. | .mtlo .. => .hiLo
  | .lb .. | .lbu .. | .lh .. | .lhu .. | .lw .. | .lwl .. | .lwr .. => .load
  | .sb .. | .sh .. | .sw .. | .swl .. | .swr .. => .store
  | .add .. | .addi .. | .addiu .. | .addu .. | .sub .. | .subu .. | .and .. | .andi .. | .lui .. | .nor ..
  | .or .. | .ori .. | .xor .. | .xori .. | .beq .. | .bgez .. | .bgezal .. | .bgtz .. | .blez .. | .bltzal ..
  | .bltz .. | .bne .. | .j .. | .jal .. | .jlr .. | .jr .. | .sll .. | .sllv .. | .sra .. | .srav .. | .srl ..
  | .srlv .. | .slt .. | .slti .. | .sltui .. | .sltu .. | .syscall .. => .neither

/-! ### The invariant of every state of a run -/

/-- The fields of a trap record are used as R176's table says, and `epc` is the `pc` at which the run ended. -/
def trapConsistent (pc : Word) (r : TrapRecord) : Bool :=
  r.epc == pc &&
  match r.kind with
  | .overflow | .systemCall => r.badaddr == none && r.word == none
  | .addressError .fetch => r.badaddr == some pc && pc.toNat % 4 != 0 && r.word == none
  | .addressError _ => r.badaddr.any (·.toNat % 4 != 0) && r.word == none
  | .reservedInstruction => r.badaddr == none && r.word.any fun w => !(decode w).toBool

/-- Memory is in its canonical form, the storage of register 0 holds zero (R11), and a trap record is
consistent (R176). -/
def Machine.State.inv (s : State) : Bool :=
  s.mem.wf && s.regs[0] == 0#32 && s.trap.all (trapConsistent s.pc)

/-! ### Runs -/

/-- No step of the run from `s` is refused: every step has the meaning the spec gives it until, if ever, an
exception ends the run. -/
def SafeRun (s : State) : Prop := ∀ n r, core.run n s ≠ .refused r

end Sys2Proof
end

