-- ==== Sys2Proof/Certificates/Slice0/Obligations.lean ====
section
/-! DEFINITION. What is claimed of the model, for the provers. `Spells w i` (Sys2Proof/Safety.lean) says that the
word decodes as the instruction and the instruction encodes as the word. -/

open Sys2Proof Sys2Proof.Machine

/-! ### Decoding and encoding (spec/30_encoding.md) -/

/-- Every instruction, well-formed or not, is what its own word decodes to (R51 to R53, R59). -/
def Obligations.DecodeOfEncode : Prop := ∀ i : Instr, decode (encode i) = .ok i

/-- A word that decodes is the encoding of what it decodes to: no bit is dropped (R51 to R53, R59). -/
def Obligations.EncodeOfDecode : Prop := ∀ (w : Word) (i : Instr), decode w = .ok i → encode i = w

/-- R60: the 57 rows are pairwise disjoint, and a word decodes to an instruction of a row exactly when the word
under the row's mask is the row's pattern. That the rows are disjoint is R60's own derivation. -/
def Obligations.OpcodeTableDecides : Prop :=
  opcodeRows.length = 57 ∧
  opcodeRows.Pairwise (fun a b => ∀ w : Word, ¬ (w &&& a.mask = a.pattern ∧ w &&& b.mask = b.pattern)) ∧
  ∀ (w : Word) (row : OpcodeRow), row ∈ opcodeRows →
    (w &&& row.mask = row.pattern ↔ ∃ i, decode w = .ok i ∧ i.opcodeRow = row)

/-- Words written out from the spec's figures and tables (R67, R59), one or more a format. -/
def Obligations.SpecWordsDecode : Prop :=
  decode 0x00221820#32 = .ok (.add 1 2 3) ∧ decode 0x2109FFFF#32 = .ok (.addi 8 9 0xFFFF) ∧
  decode 0x0320F809#32 = .ok (.jlr 25 31) ∧ decode 0x03E00008#32 = .ok (.jr 31) ∧
  decode 0x83A9FFFC#32 = .ok (.lb 29 9 0xFFFC) ∧ decode 0x00001010#32 = .ok (.mfhi 2) ∧
  decode 0x05110004#32 = .ok (.bgezal 8 4) ∧ decode 0x08100008#32 = .ok (.j 0x100008) ∧
  decode 0x000957C3#32 = .ok (.sra 9 10 31) ∧ decode 0x03FFFFCC#32 = .ok (.syscall 0xFFFFF) ∧
  (decode 0x01095060#32).toOption = none ∧ (decode 0xFFFFFFFF#32).toOption = none

/-- R173: a fetched word that matches no row of the table raises ReservedInstruction, with the word and its address
in the record, and changes nothing else. -/
def Obligations.UndefinedWordRaises : Prop :=
  ∀ s : State, s.trap = none → Fetchable s →
    (∀ row ∈ opcodeRows, s.memWord s.pc &&& row.mask ≠ row.pattern) →
    ∃ t, step s = .next t ∧ Trapped s t ⟨.reservedInstruction, s.pc, none, some (s.memWord s.pc)⟩

/-! ### The step (spec/10_state.md R15, spec/60_exceptions.md R176, R177) -/

/-- Where the word at `pc` can be fetched and decodes to an instruction, a step is that instruction's meaning, which
sets the next `pc` itself (R15). -/
def Obligations.StepRunsDecodedInstruction : Prop :=
  ∀ (s : State) (i : Instr), s.trap = none → Fetchable s → decode (s.memWord s.pc) = .ok i → step s = exec i s

/-- The order of the fetch's checks (R15, R177): a misaligned `pc` raises before memory is looked at; an aligned
`pc` some byte of whose word is outside `MEM_VALID` or `TEXT` is refused and makes no trap record. Which failing
byte the refusal names is the model's choice (log 11). -/
def Obligations.FetchChecksInOrder : Prop :=
  ∀ s : State, s.trap = none →
    (s.pc.toNat % 4 ≠ 0 →
      ∃ t, step s = .next t ∧ Trapped s t ⟨.addressError .fetch, s.pc, some s.pc, none⟩) ∧
    (s.pc.toNat % 4 = 0 → ¬ Fetchable s →
      ∃ i < 4,
        (s.validAddr (s.pc + BitVec.ofNat 32 i) = false ∧
          step s = .refused (.outsideMemory .fetch (s.pc + BitVec.ofNat 32 i))) ∨
        (s.inText (s.pc + BitVec.ofNat 32 i) = false ∧
          step s = .refused (.fetchOutsideText (s.pc + BitVec.ofNat 32 i))))

/-- After a trap there is no step, and a step is never a fault for another reason (R15 (1), R193). That the machine
says so with a fault is the model's choice (log 10). -/
def Obligations.NoStepAfterTrap : Prop :=
  ∀ s : State, (s.trap ≠ none ↔ step s = .fault .runEnded) ∧ (s.trap ≠ none → SafeRun s)

/-- R176: whenever a step leaves a trap record, the record is all that the step changed, its `epc` is the `pc` of
the instruction, its fields hold what the table of R176 says, and the run ends there: `word` the fetched word of a
reserved instruction, `badaddr` the `pc` of a fetch error or the effective address of the load or store that raised.
That a step asked for after the trap answers the fault `runEnded`, the last clause, is the model's choice (log 10). -/
def Obligations.ExceptionsArePrecise : Prop :=
  ∀ (s t : State) (r : TrapRecord), step s = .next t → t.trap = some r →
    Trapped s t r ∧ t = { s with trap := some r } ∧ r.epc = s.pc ∧
    (r.badaddr ≠ none ↔ ∃ k, r.kind = .addressError k) ∧
    (r.word ≠ none ↔ r.kind = .reservedInstruction) ∧
    (r.kind = .reservedInstruction → r.word = some (s.memWord s.pc)) ∧
    (r.kind = .addressError .fetch → r.badaddr = some s.pc) ∧
    (r.kind ≠ .reservedInstruction → r.kind ≠ .addressError .fetch →
      ∃ i, decode (s.memWord s.pc) = .ok i ∧ i.canRaise = some r.kind ∧
        r.badaddr = i.memoryOperand.map fun m => effectiveAddress s m.1 m.2) ∧
    step t = .fault .runEnded

/-- R174, its own derivation: an instruction raises the one exception its row of the table gives it and no other, and each of the nine
instructions that can raise does so in some state. -/
def Obligations.InstructionsRaiseOnlyListed : Prop :=
  (∀ (i : Instr) (s t : State) (r : TrapRecord), s.trap = none → exec i s = .next t → t.trap = some r →
    i.canRaise = some r.kind) ∧
  ∀ i ∈ ([.add 8 8 9, .addi 8 9 1, .sub 8 10 9, .lh 8 9 0, .lhu 8 9 0, .lw 8 9 0, .sh 8 9 0, .sw 8 9 0,
      .syscall 0] : List Instr),
    ∃ (s t : State) (r : TrapRecord), s.trap = none ∧ exec i s = .next t ∧ t.trap = some r

/-! ### What instructions reach, over all of them -/

/-- R13, its own derivation: no instruction writes a register other than the one its row of R13's table names. -/
def Obligations.RegistersWrittenAsListed : Prop :=
  ∀ (i : Instr) (s t : State) (r : RegIdx), exec i s = .next t → i.destination ≠ some r → t.reg r = s.reg r

/-- R18: an instruction outside the eight of R18 neither writes HI and LO nor depends on them. -/
def Obligations.HiLoReachedByEightOnly : Prop :=
  ∀ (i : Instr) (s t : State) (hi lo : Word), i.reach ≠ .hiLo → exec i s = .next t →
    t.hi = s.hi ∧ t.lo = s.lo ∧
    exec i { s with hi := hi, lo := lo } = .next { t with hi := hi, lo := lo }

/-- R22: only the five stores change memory, and an instruction that is neither a load nor a store does not depend
on it. -/
def Obligations.MemoryReachedByLoadsAndStoresOnly : Prop :=
  ∀ (i : Instr) (s t : State), exec i s = .next t →
    (i.reach ≠ .store → t.mem = s.mem) ∧
    (i.reach ≠ .store → i.reach ≠ .load → ∀ m, exec i { s with mem := m } = .next { t with mem := m })

/-- A free value is drawn by `div` and `divu` with a zero divisor and by nothing else (00_scope.md 5.3, U1). The count
of the values drawn is the model's own field (log 8). -/
def Obligations.DrawsOnlyForZeroDivisor : Prop :=
  ∀ (i : Instr) (s t : State), exec i s = .next t → t.draws ≠ s.draws →
    ∃ rs rt, (i = .div rs rt ∨ i = .divu rs rt) ∧ s.reg rt = 0#32

/-- R16: from an aligned `pc`, every instruction but `jr` and `jlr` leaves an aligned `pc`. -/
def Obligations.PcStaysAligned : Prop :=
  ∀ (i : Instr) (s t : State), exec i s = .next t → s.pc.toNat % 4 = 0 →
    (∀ rs, i ≠ .jr rs) → (∀ rs rd, i ≠ .jlr rs rd) → t.pc.toNat % 4 = 0

/-- `ENDIAN`, `MEM_VALID` and `TEXT` are fixed for a whole run (R5, R30). That they stand in the state is the model's
choice (log 1). -/
def Obligations.ParametersFixedForRun : Prop :=
  ∀ (n : Nat) (s t : State), core.run n s = .next t → t.params = s.params

/-- R45, R25: over any run, from any state, every byte of `TEXT` keeps its value, so the word fetched at an address in
`TEXT` is always the one the run started with. -/
def Obligations.TextNeverChanges : Prop :=
  ∀ (n : Nat) (s t : State), core.run n s = .next t →
    (∀ a, s.inText a = true → t.memByte a = s.memByte a) ∧
    ∀ a, (∀ i < 4, s.inText (a + BitVec.ofNat 32 i) = true) → t.memWord a = s.memWord a

/-! ### The invariant, reset and launch -/

/-- Every step keeps the invariant: memory in canonical form (the model's own, log 4), register 0's storage zero, a
trap record consistent with R176. -/
def Obligations.StepKeepsInvariant : Prop := ∀ s t : State, s.inv = true → step s = .next t → t.inv = true

/-- The invariant holds after reset. -/
def Obligations.ResetHasInvariant : Prop := State.reset.inv = true

/-- R190, R24, R191: the launch state for any parameters. That a register the caller does not set, HI and LO among
them, is a free value is the model's choice between the two R24 offers (log 9). `State.inv`, the last clause, includes
the canonical form of memory, the model's own (log 4). The launch may be one outside R5's types (log 17). -/
def Obligations.LaunchState : Prop :=
  ∀ l : Launch,
    (State.launch l).pc = l.entry ∧ (State.launch l).trap = none ∧ (State.launch l).params = l.params ∧
    (State.launch l).reg 0 = 0#32 ∧
    (∀ r v, r ≠ 0#5 → l.initRegs.lookup r = some v → (State.launch l).reg r = v) ∧
    (∀ r, r ≠ 0#5 → l.initRegs.lookup r = none → (State.launch l).reg r = Config.unsetRegister r.toNat) ∧
    (∀ v, l.initHi = some v → (State.launch l).hi = v) ∧ (∀ v, l.initLo = some v → (State.launch l).lo = v) ∧
    (l.initHi = none → (State.launch l).hi = Config.unsetRegister 32) ∧
    (l.initLo = none → (State.launch l).lo = Config.unsetRegister 33) ∧
    ((l.initMem.map (·.1)).Nodup → ∀ c ∈ l.initMem, (State.launch l).memByte c.1 = c.2) ∧
    (State.launch l).inv = true

/-- Reset is one launch; its parameters and register values are the model's choices (logs 2 to 8). -/
def Obligations.ResetIsALaunch : Prop :=
  State.reset = State.launch Launch.reset ∧ State.reset.trap = none ∧ (∀ r, State.reset.reg r = 0#32) ∧
  (∀ a, State.reset.memByte a = 0#8) ∧ (∀ a, State.reset.validAddr a = true) ∧
  ∀ a, State.reset.inText a = false

/-- A word placed by `withFetchWord` is what the next step runs (log 7, the model's own load). -/
def Obligations.PlacedWordRunsNext : Prop :=
  ∀ (s : State) (w : Word) (i : Instr), decode w = .ok i →
    step (s.withFetchWord 32 w.toNat) = exec i (s.withFetchWord 32 w.toNat) ∧
    (∀ r, (s.withFetchWord 32 w.toNat).reg r = s.reg r) ∧ (s.withFetchWord 32 w.toNat).hi = s.hi ∧
    (s.withFetchWord 32 w.toNat).lo = s.lo

/-! ### Registers and memory (spec/10_state.md, spec/20_memory.md) -/

/-- R11: register 0 reads as zero, a write to it changes nothing, other registers hold what was last written; an
instruction with destination 0 still raises. -/
def Obligations.RegisterZeroHardwired : Prop :=
  (∀ s : State, s.reg 0 = 0#32) ∧ (∀ (s : State) v, s.setReg 0 v = s) ∧
  (∀ (s : State) (r q : RegIdx) v, r ≠ 0#5 → (s.setReg r v).reg q = if q = r then v else s.reg q) ∧
  ∀ (s : State) (rs rt : RegIdx), ¬ FitsSigned ((s.reg rs).toInt + (s.reg rt).toInt) →
    ∃ t, exec (.add rs rt 0) s = .next t ∧ Trapped s t ⟨.overflow, s.pc, none, none⟩

/-- R31: the value read is put together from its bytes by `ENDIAN`, at any address modulo 2^32. -/
def Obligations.ReadsJoinBytesByEndian : Prop :=
  ∀ (s : State) (a : Word),
    let b := fun i => (s.memByte (a + BitVec.ofNat 32 i)).toNat
    (s.params.endian = .little →
      (s.memHalf a).toNat = b 0 + 2 ^ 8 * b 1 ∧
      (s.memWord a).toNat = b 0 + 2 ^ 8 * b 1 + 2 ^ 16 * b 2 + 2 ^ 24 * b 3) ∧
    (s.params.endian = .big →
      (s.memHalf a).toNat = b 1 + 2 ^ 8 * b 0 ∧
      (s.memWord a).toNat = b 3 + 2 ^ 8 * b 2 + 2 ^ 16 * b 1 + 2 ^ 24 * b 0)

/-- R32: a write places the bytes by `ENDIAN`, changes no other byte, and reads back. -/
def Obligations.WritePlacesBytesAndReadsBack : Prop :=
  ∀ (s : State) (a v : Word) (n : Nat), n = 1 ∨ n = 2 ∨ n = 4 →
    let t : State := { s with mem := s.mem.writeCells (storedCells s.params.endian a n v) }
    (∀ i < n, t.memByte (a + BitVec.ofNat 32 i) =
      match s.params.endian with
      | .little => byteOf v i
      | .big => byteOf v (n - 1 - i)) ∧
    (∀ p, (∀ i < n, p ≠ a + BitVec.ofNat 32 i) → t.memByte p = s.memByte p) ∧
    (n = 1 → t.memByte a = v.extractLsb' 0 8) ∧ (n = 2 → t.memHalf a = v.extractLsb' 0 16) ∧
    (n = 4 → t.memWord a = v)

/-- Two memories in canonical form that read alike are the same list (the model's own form, log 4). -/
def Obligations.CanonicalMemoryIsExtensional : Prop :=
  ∀ m k : Memory, m.wf = true → k.wf = true → (∀ a, m.read a = k.read a) → m = k

/-- R40, R120: the address of a load or store is the sum modulo 2^32, and raises nothing by itself. -/
def Obligations.EffectiveAddressWraps : Prop :=
  ∀ (s : State) (rs : RegIdx) (imm : Half),
    ((effectiveAddress s rs imm).toNat : Int) = ((s.reg rs).toNat + imm.toInt) % 2 ^ 32

/-- R128: the byte that `ea` addresses is the one of significance `k` in its aligned word, `k` being `ea[1:0]` or
three less it by `ENDIAN`, and the aligned word holds `ea`. -/
def Obligations.SignificanceOfAddressedByte : Prop :=
  ∀ (s : State) (ea : Word),
    (s.params.endian = .little → significance s.params.endian ea = ea.toNat % 4) ∧
    (s.params.endian = .big → significance s.params.endian ea = 3 - ea.toNat % 4) ∧
    (wordBase ea).toNat = ea.toNat - ea.toNat % 4 ∧
    s.memByte ea = byteOf (s.memWord (wordBase ea)) (significance s.params.endian ea)

/-! ### Add and subtract (spec/40_arithmetic.md) -/

/-- R73, R74, R76: the sums and the difference modulo 2^32, never an exception. -/
def Obligations.WrappingArithmeticResults : Prop :=
  ∀ (s : State) (rs rt rd : RegIdx) (imm : Half),
    Spells (0b000000#6 ++ rs ++ rt ++ rd ++ 0b00000#5 ++ 0b100001#6) (.addu rs rt rd) ∧
    (∃ t, exec (.addu rs rt rd) s = .next t ∧
      RegWritten s t rd (BitVec.ofNat 32 ((s.reg rs).toNat + (s.reg rt).toNat))) ∧
    Spells (0b000000#6 ++ rs ++ rt ++ rd ++ 0b00000#5 ++ 0b100011#6) (.subu rs rt rd) ∧
    (∃ t, exec (.subu rs rt rd) s = .next t ∧
      RegWritten s t rd (BitVec.ofInt 32 ((s.reg rs).toNat - (s.reg rt).toNat))) ∧
    Spells (0b001001#6 ++ rs ++ rt ++ imm) (.addiu rs rt imm) ∧
    ∃ t, exec (.addiu rs rt imm) s = .next t ∧
      RegWritten s t rt (BitVec.ofInt 32 ((s.reg rs).toNat + imm.toInt))

/-- R71, R72, R75: where the exact signed result fits in 32 bits it is written; where it does not, Overflow is raised
and nothing is written. -/
def Obligations.TrappingArithmeticResults : Prop :=
  ∀ (s : State) (rs rt rd : RegIdx) (imm : Half),
    let sum := (s.reg rs).toInt + (s.reg rt).toInt
    let isum := (s.reg rs).toInt + imm.toInt
    let dif := (s.reg rs).toInt - (s.reg rt).toInt
    Spells (0b000000#6 ++ rs ++ rt ++ rd ++ 0b00000#5 ++ 0b100000#6) (.add rs rt rd) ∧
    (FitsSigned sum → ∃ t, exec (.add rs rt rd) s = .next t ∧ RegWritten s t rd (BitVec.ofInt 32 sum)) ∧
    (¬ FitsSigned sum →
      ∃ t, exec (.add rs rt rd) s = .next t ∧ Trapped s t ⟨.overflow, s.pc, none, none⟩) ∧
    Spells (0b001000#6 ++ rs ++ rt ++ imm) (.addi rs rt imm) ∧
    (FitsSigned isum → ∃ t, exec (.addi rs rt imm) s = .next t ∧ RegWritten s t rt (BitVec.ofInt 32 isum)) ∧
    (¬ FitsSigned isum →
      ∃ t, exec (.addi rs rt imm) s = .next t ∧ Trapped s t ⟨.overflow, s.pc, none, none⟩) ∧
    Spells (0b000000#6 ++ rs ++ rt ++ rd ++ 0b00000#5 ++ 0b100010#6) (.sub rs rt rd) ∧
    (FitsSigned dif → ∃ t, exec (.sub rs rt rd) s = .next t ∧ RegWritten s t rd (BitVec.ofInt 32 dif)) ∧
    (¬ FitsSigned dif → ∃ t, exec (.sub rs rt rd) s = .next t ∧ Trapped s t ⟨.overflow, s.pc, none, none⟩)

/-- R70: `add`, `addi` and `sub` raise `Overflow` exactly in the states in which the sign bits of the operands and of
the wrapped result say so, and in the others do just what `addu`, `addiu` and `subu` do; the model's test on the exact
integers agrees, and where it passes the wrapped result is the exact one. -/
def Obligations.OverflowBySignBits : Prop :=
  (∀ (s : State) (rs rt rd : RegIdx) (imm : Half),
    let a := s.reg rs
    let b := s.reg rt
    let c := sext imm
    let raises := fun i => ∃ t, exec i s = .next t ∧ Trapped s t ⟨.overflow, s.pc, none, none⟩
    (raises (.add rs rt rd) ↔ a.msb = b.msb ∧ (a + b).msb ≠ a.msb) ∧
    (raises (.addi rs rt imm) ↔ a.msb = c.msb ∧ (a + c).msb ≠ a.msb) ∧
    (raises (.sub rs rt rd) ↔ a.msb ≠ b.msb ∧ (a - b).msb ≠ a.msb) ∧
    (¬ raises (.add rs rt rd) → exec (.add rs rt rd) s = exec (.addu rs rt rd) s) ∧
    (¬ raises (.addi rs rt imm) → exec (.addi rs rt imm) s = exec (.addiu rs rt imm) s) ∧
    (¬ raises (.sub rs rt rd) → exec (.sub rs rt rd) s = exec (.subu rs rt rd) s)) ∧
  ∀ a b : Word,
    (addOverflows a b = true ↔ a.msb = b.msb ∧ (a + b).msb ≠ a.msb) ∧
    (subOverflows a b = true ↔ a.msb ≠ b.msb ∧ (a - b).msb ≠ a.msb) ∧
    (addOverflows a b = true ↔ ¬ FitsSigned (a.toInt + b.toInt)) ∧
    (subOverflows a b = true ↔ ¬ FitsSigned (a.toInt - b.toInt)) ∧
    (addOverflows a b = false → (a + b).toInt = a.toInt + b.toInt) ∧
    (subOverflows a b = false → (a - b).toInt = a.toInt - b.toInt)

/-! ### Logical (spec/41_logical.md) -/

/-- R80, R83, R84, R86: bit by bit. -/
def Obligations.LogicalRegisterResults : Prop :=
  ∀ (s : State) (rs rt rd : RegIdx),
    let a := fun n => (s.reg rs).getLsbD n
    let b := fun n => (s.reg rt).getLsbD n
    Spells (0b000000#6 ++ rs ++ rt ++ rd ++ 0b00000#5 ++ 0b100100#6) (.and rs rt rd) ∧
    (∃ t v, exec (.and rs rt rd) s = .next t ∧ RegWritten s t rd v ∧
      ∀ n < 32, v.getLsbD n = (a n && b n)) ∧
    Spells (0b000000#6 ++ rs ++ rt ++ rd ++ 0b00000#5 ++ 0b100111#6) (.nor rs rt rd) ∧
    (∃ t v, exec (.nor rs rt rd) s = .next t ∧ RegWritten s t rd v ∧
      ∀ n < 32, v.getLsbD n = !(a n || b n)) ∧
    Spells (0b000000#6 ++ rs ++ rt ++ rd ++ 0b00000#5 ++ 0b100101#6) (.or rs rt rd) ∧
    (∃ t v, exec (.or rs rt rd) s = .next t ∧ RegWritten s t rd v ∧
      ∀ n < 32, v.getLsbD n = (a n || b n)) ∧
    Spells (0b000000#6 ++ rs ++ rt ++ rd ++ 0b00000#5 ++ 0b100110#6) (.xor rs rt rd) ∧
    ∃ t v, exec (.xor rs rt rd) s = .next t ∧ RegWritten s t rd v ∧
      ∀ n < 32, v.getLsbD n = (a n ^^ b n)

/-- R81, R82, R85, R87: the immediate zero-extended, or in the upper half for `lui`. -/
def Obligations.LogicalImmediateResults : Prop :=
  ∀ (s : State) (rs rt : RegIdx) (imm : Half),
    let a := fun n => (s.reg rs).getLsbD n
    let b := fun n => decide (n < 16) && imm.getLsbD n
    Spells (0b001100#6 ++ rs ++ rt ++ imm) (.andi rs rt imm) ∧
    (∃ t v, exec (.andi rs rt imm) s = .next t ∧ RegWritten s t rt v ∧
      ∀ n < 32, v.getLsbD n = (a n && b n)) ∧
    Spells (0b001101#6 ++ rs ++ rt ++ imm) (.ori rs rt imm) ∧
    (∃ t v, exec (.ori rs rt imm) s = .next t ∧ RegWritten s t rt v ∧
      ∀ n < 32, v.getLsbD n = (a n || b n)) ∧
    Spells (0b001110#6 ++ rs ++ rt ++ imm) (.xori rs rt imm) ∧
    (∃ t v, exec (.xori rs rt imm) s = .next t ∧ RegWritten s t rt v ∧
      ∀ n < 32, v.getLsbD n = (a n ^^ b n)) ∧
    Spells (0b001111#6 ++ 0b00000#5 ++ rt ++ imm) (.lui rt imm) ∧
    ∃ t, exec (.lui rt imm) s = .next t ∧ RegWritten s t rt (BitVec.ofNat 32 (imm.toNat * 2 ^ 16))

/-! ### Branches (spec/42_branch.md) -/

/-- R91, R92, R94, R95, R97, R98: taken or not by the condition, nothing but `pc` changes. -/
def Obligations.BranchResults : Prop :=
  ∀ (s : State) (rs rt : RegIdx) (imm : Half),
    let a := s.reg rs
    let taken := wordsAhead s.pc imm
    let next := s.pc + 4#32
    Spells (0b000100#6 ++ rs ++ rt ++ imm) (.beq rs rt imm) ∧
    (∃ t, exec (.beq rs rt imm) s = .next t ∧ Transferred s t (if a = s.reg rt then taken else next)) ∧
    Spells (0b000101#6 ++ rs ++ rt ++ imm) (.bne rs rt imm) ∧
    (∃ t, exec (.bne rs rt imm) s = .next t ∧ Transferred s t (if a = s.reg rt then next else taken)) ∧
    Spells (0b000001#6 ++ rs ++ 0b00001#5 ++ imm) (.bgez rs imm) ∧
    (∃ t, exec (.bgez rs imm) s = .next t ∧ Transferred s t (if a.msb = false then taken else next)) ∧
    Spells (0b000111#6 ++ rs ++ 0b00000#5 ++ imm) (.bgtz rs imm) ∧
    (∃ t, exec (.bgtz rs imm) s = .next t ∧
      Transferred s t (if a.msb = false ∧ a ≠ 0#32 then taken else next)) ∧
    Spells (0b000110#6 ++ rs ++ 0b00000#5 ++ imm) (.blez rs imm) ∧
    (∃ t, exec (.blez rs imm) s = .next t ∧
      Transferred s t (if a.msb = true ∨ a = 0#32 then taken else next)) ∧
    Spells (0b000001#6 ++ rs ++ 0b00000#5 ++ imm) (.bltz rs imm) ∧
    ∃ t, exec (.bltz rs imm) s = .next t ∧ Transferred s t (if a.msb = true then taken else next)

/-- R93, R96: `x[31]` receives `pc + 4` only when the branch is taken; the condition reads the old `x[31]`. -/
def Obligations.BranchAndLinkResults : Prop :=
  ∀ (s : State) (rs : RegIdx) (imm : Half),
    let taken := wordsAhead s.pc imm
    let next := s.pc + 4#32
    Spells (0b000001#6 ++ rs ++ 0b10001#5 ++ imm) (.bgezal rs imm) ∧
    ((s.reg rs).msb = false → ∃ t, exec (.bgezal rs imm) s = .next t ∧ Linked s t 31 next taken) ∧
    ((s.reg rs).msb = true → ∃ t, exec (.bgezal rs imm) s = .next t ∧ Transferred s t next) ∧
    Spells (0b000001#6 ++ rs ++ 0b10000#5 ++ imm) (.bltzal rs imm) ∧
    ((s.reg rs).msb = true → ∃ t, exec (.bltzal rs imm) s = .next t ∧ Linked s t 31 next taken) ∧
    ((s.reg rs).msb = false → ∃ t, exec (.bltzal rs imm) s = .next t ∧ Transferred s t next)

/-! ### Multiply and divide (spec/43_muldiv.md) -/

/-- R106, R107: HI and LO together are the exact product. -/
def Obligations.MultiplyResults : Prop :=
  ∀ (s : State) (rs rt : RegIdx),
    Spells (0b000000#6 ++ rs ++ rt ++ 0b00000#5 ++ 0b00000#5 ++ 0b011000#6) (.mult rs rt) ∧
    (∃ t hi lo, exec (.mult rs rt) s = .next t ∧ HiLoWritten s t hi lo ∧
      (hi ++ lo).toInt = (s.reg rs).toInt * (s.reg rt).toInt) ∧
    Spells (0b000000#6 ++ rs ++ rt ++ 0b00000#5 ++ 0b00000#5 ++ 0b011001#6) (.multu rs rt) ∧
    ∃ t hi lo, exec (.multu rs rt) s = .next t ∧ HiLoWritten s t hi lo ∧
      (hi ++ lo).toNat = (s.reg rs).toNat * (s.reg rt).toNat

/-- R100: quotient and remainder as the sign rules fix them, -2^31 / -1 included; a zero divisor gives LO and HI fresh
free values and nothing else. Rounding toward zero is R100's own derivation, the value of -2^31 / -1 its decision D18
(log 14), the form of the free values the model's choice (log 8). -/
def Obligations.DivideResults : Prop :=
  ∀ (s : State) (rs rt : RegIdx),
    let n := (s.reg rs).toInt
    let d := (s.reg rt).toInt
    Spells (0b000000#6 ++ rs ++ rt ++ 0b00000#5 ++ 0b00000#5 ++ 0b011010#6) (.div rs rt) ∧
    (s.reg rt = 0#32 → ∃ t, exec (.div rs rt) s = .next t ∧ HiLoDrawn s t) ∧
    (s.reg rt ≠ 0#32 → ∃ t, ∃ q r : Int, exec (.div rs rt) s = .next t ∧
      HiLoWritten s t (BitVec.ofInt 32 r) (BitVec.ofInt 32 q) ∧
      n = q * d + r ∧ r.natAbs < d.natAbs ∧ (r = 0 ∨ r.sign = n.sign) ∧
      (s.reg rs = 0x80000000#32 → s.reg rt = 0xFFFFFFFF#32 → t.lo = 0x80000000#32 ∧ t.hi = 0#32))

/-- R101: the unsigned quotient and remainder; a zero divisor gives LO and HI fresh free values, whose form (a counter,
LO drawn first) is the model's choice (log 8). -/
def Obligations.DivideUnsignedResults : Prop :=
  ∀ (s : State) (rs rt : RegIdx),
    Spells (0b000000#6 ++ rs ++ rt ++ 0b00000#5 ++ 0b00000#5 ++ 0b011011#6) (.divu rs rt) ∧
    (s.reg rt = 0#32 → ∃ t, exec (.divu rs rt) s = .next t ∧ HiLoDrawn s t) ∧
    (s.reg rt ≠ 0#32 → ∃ t hi lo, exec (.divu rs rt) s = .next t ∧ HiLoWritten s t hi lo ∧
      (s.reg rs).toNat = lo.toNat * (s.reg rt).toNat + hi.toNat ∧ hi.toNat < (s.reg rt).toNat)

/-- R102 to R105: each moves its one value and leaves the other special register. -/
def Obligations.HiLoMoveResults : Prop :=
  ∀ (s : State) (rs rd : RegIdx),
    Spells (0b000000#6 ++ 0b00000#5 ++ 0b00000#5 ++ rd ++ 0b00000#5 ++ 0b010000#6) (.mfhi rd) ∧
    (∃ t, exec (.mfhi rd) s = .next t ∧ RegWritten s t rd s.hi) ∧
    Spells (0b000000#6 ++ 0b00000#5 ++ 0b00000#5 ++ rd ++ 0b00000#5 ++ 0b010010#6) (.mflo rd) ∧
    (∃ t, exec (.mflo rd) s = .next t ∧ RegWritten s t rd s.lo) ∧
    Spells (0b000000#6 ++ rs ++ 0b00000#5 ++ 0b00000#5 ++ 0b00000#5 ++ 0b010001#6) (.mthi rs) ∧
    (∃ t, exec (.mthi rs) s = .next t ∧ HiLoWritten s t (s.reg rs) s.lo) ∧
    Spells (0b000000#6 ++ rs ++ 0b00000#5 ++ 0b00000#5 ++ 0b00000#5 ++ 0b010011#6) (.mtlo rs) ∧
    ∃ t, exec (.mtlo rs) s = .next t ∧ HiLoWritten s t s.hi (s.reg rs)

/-! ### Jumps (spec/44_jump.md) -/

/-- R110, R111: the top four bits of `pc + 4` above `target` times four; `jal` links `pc + 4` in `x[31]`. -/
def Obligations.JumpResults : Prop :=
  ∀ (s : State) (target : BitVec 26),
    let dest := BitVec.ofNat 32 ((s.pc + 4#32).toNat / 2 ^ 28 * 2 ^ 28 + target.toNat * 4)
    Spells (0b000010#6 ++ target) (.j target) ∧
    (∃ t, exec (.j target) s = .next t ∧ Transferred s t dest) ∧
    Spells (0b000011#6 ++ target) (.jal target) ∧
    ∃ t, exec (.jal target) s = .next t ∧ Linked s t 31 (s.pc + 4#32) dest

/-- R113: the jump itself always completes; where the machine is not trapped, a target that is no multiple of 4 raises
at the next step, and an aligned one that cannot be fetched is refused there. -/
def Obligations.JumpRegisterResults : Prop :=
  ∀ (s : State) (rs : RegIdx),
    Spells (0b000000#6 ++ rs ++ 0b00000#5 ++ 0b00000#5 ++ 0b00000#5 ++ 0b001000#6) (.jr rs) ∧
    ∃ t, exec (.jr rs) s = .next t ∧ Transferred s t (s.reg rs) ∧
      (s.trap = none → (s.reg rs).toNat % 4 ≠ 0 →
        ∃ u, step t = .next u ∧ Trapped t u ⟨.addressError .fetch, s.reg rs, some (s.reg rs), none⟩) ∧
      (s.trap = none → (s.reg rs).toNat % 4 = 0 → ¬ Fetchable t → ∃ r, step t = .refused r)

/-- R112: the old `x[rs]` is the target and `pc + 4` the link; one register named twice, other than register 0, is
refused; the next step meets a bad target as for `jr`. -/
def Obligations.JumpAndLinkRegisterResults : Prop :=
  ∀ (s : State) (rs rd : RegIdx),
    Spells (0b000000#6 ++ rs ++ 0b00000#5 ++ rd ++ 0b00000#5 ++ 0b001001#6) (.jlr rs rd) ∧
    (rd ≠ rs ∨ rd = 0#5 → ∃ t, exec (.jlr rs rd) s = .next t ∧ Linked s t rd (s.pc + 4#32) (s.reg rs) ∧
      (s.trap = none → (s.reg rs).toNat % 4 ≠ 0 →
        ∃ u, step t = .next u ∧ Trapped t u ⟨.addressError .fetch, s.reg rs, some (s.reg rs), none⟩) ∧
      (s.trap = none → (s.reg rs).toNat % 4 = 0 → ¬ Fetchable t → ∃ r, step t = .refused r)) ∧
    (rd = rs → rd ≠ 0#5 → exec (.jlr rs rd) s = .refused (.jlrSameRegister rd))

/-! ### Loads (spec/45_load.md) -/

/-- R121, R122: the byte, sign- or zero-extended; refused where it does not exist. -/
def Obligations.LoadByteResults : Prop :=
  ∀ (s : State) (rs rt : RegIdx) (imm : Half),
    let ea := effectiveAddress s rs imm
    Spells (0b100000#6 ++ rs ++ rt ++ imm) (.lb rs rt imm) ∧
    Spells (0b100100#6 ++ rs ++ rt ++ imm) (.lbu rs rt imm) ∧
    (s.validAddr ea = true →
      (∃ t, exec (.lb rs rt imm) s = .next t ∧ RegWritten s t rt (BitVec.ofInt 32 (s.memByte ea).toInt)) ∧
      ∃ t, exec (.lbu rs rt imm) s = .next t ∧ RegWritten s t rt (BitVec.ofNat 32 (s.memByte ea).toNat)) ∧
    (s.validAddr ea = false →
      exec (.lb rs rt imm) s = .refused (.outsideMemory .load ea) ∧
      exec (.lbu rs rt imm) s = .refused (.outsideMemory .load ea))

/-- R123, R124: an odd address raises, whether or not it exists; at an even one the half word is loaded, or the access
is refused naming a byte that does not exist. -/
def Obligations.LoadHalfResults : Prop :=
  ∀ (s : State) (rs rt : RegIdx) (imm : Half),
    let ea := effectiveAddress s rs imm
    Spells (0b100001#6 ++ rs ++ rt ++ imm) (.lh rs rt imm) ∧
    Spells (0b100101#6 ++ rs ++ rt ++ imm) (.lhu rs rt imm) ∧
    (ea.toNat % 2 = 1 →
      (∃ t, exec (.lh rs rt imm) s = .next t ∧ Trapped s t ⟨.addressError .load, s.pc, some ea, none⟩) ∧
      ∃ t, exec (.lhu rs rt imm) s = .next t ∧ Trapped s t ⟨.addressError .load, s.pc, some ea, none⟩) ∧
    (ea.toNat % 2 = 0 → BytesValid s ea 2 →
      (∃ t, exec (.lh rs rt imm) s = .next t ∧ RegWritten s t rt (BitVec.ofInt 32 (s.memHalf ea).toInt)) ∧
      ∃ t, exec (.lhu rs rt imm) s = .next t ∧ RegWritten s t rt (BitVec.ofNat 32 (s.memHalf ea).toNat)) ∧
    (ea.toNat % 2 = 0 → ¬ BytesValid s ea 2 →
      ∃ i < 2, s.validAddr (ea + BitVec.ofNat 32 i) = false ∧
        exec (.lh rs rt imm) s = .refused (.outsideMemory .load (ea + BitVec.ofNat 32 i)) ∧
        exec (.lhu rs rt imm) s = .refused (.outsideMemory .load (ea + BitVec.ofNat 32 i)))

/-- R125: an address that is no multiple of 4 raises, whether or not it exists; at a multiple of 4 the word is loaded,
or the access is refused naming a byte that does not exist. -/
def Obligations.LoadWordResults : Prop :=
  ∀ (s : State) (rs rt : RegIdx) (imm : Half),
    let ea := effectiveAddress s rs imm
    Spells (0b100011#6 ++ rs ++ rt ++ imm) (.lw rs rt imm) ∧
    (ea.toNat % 4 ≠ 0 →
      ∃ t, exec (.lw rs rt imm) s = .next t ∧ Trapped s t ⟨.addressError .load, s.pc, some ea, none⟩) ∧
    (ea.toNat % 4 = 0 → BytesValid s ea 4 →
      ∃ t, exec (.lw rs rt imm) s = .next t ∧ RegWritten s t rt (s.memWord ea)) ∧
    (ea.toNat % 4 = 0 → ¬ BytesValid s ea 4 →
      ∃ i < 4, s.validAddr (ea + BitVec.ofNat 32 i) = false ∧
        exec (.lw rs rt imm) s = .refused (.outsideMemory .load (ea + BitVec.ofNat 32 i)))

/-- R126: the `k + 1` bytes from the addressed one down go to the top of the register, the others of the register are
kept; only those bytes need to exist; no address raises. -/
def Obligations.LoadWordLeftResults : Prop :=
  ∀ (s : State) (rs rt : RegIdx) (imm : Half),
    let ea := effectiveAddress s rs imm
    let k := significance s.params.endian ea
    Spells (0b100010#6 ++ rs ++ rt ++ imm) (.lwl rs rt imm) ∧
    (BytesValid s (leftStart s.params.endian ea) (k + 1) →
      ∃ t v, exec (.lwl rs rt imm) s = .next t ∧ RegWritten s t rt v ∧
        ∀ j < 4, byteOf v j =
          if j < 3 - k then byteOf (s.reg rt) j else byteOf (s.memWord (wordBase ea)) (j - (3 - k))) ∧
    (¬ BytesValid s (leftStart s.params.endian ea) (k + 1) →
      ∃ a, s.validAddr a = false ∧ exec (.lwl rs rt imm) s = .refused (.outsideMemory .load a))

/-- R127: the `4 - k` bytes from the addressed one up go to the bottom of the register, the others of the register are
kept; only those bytes need to exist; no address raises. -/
def Obligations.LoadWordRightResults : Prop :=
  ∀ (s : State) (rs rt : RegIdx) (imm : Half),
    let ea := effectiveAddress s rs imm
    let k := significance s.params.endian ea
    Spells (0b100110#6 ++ rs ++ rt ++ imm) (.lwr rs rt imm) ∧
    (BytesValid s (rightStart s.params.endian ea) (4 - k) →
      ∃ t v, exec (.lwr rs rt imm) s = .next t ∧ RegWritten s t rt v ∧
        ∀ j < 4, byteOf v j =
          if j < 4 - k then byteOf (s.memWord (wordBase ea)) (j + k) else byteOf (s.reg rt) j) ∧
    (¬ BytesValid s (rightStart s.params.endian ea) (4 - k) →
      ∃ a, s.validAddr a = false ∧ exec (.lwr rs rt imm) s = .refused (.outsideMemory .load a))

/-- R126 corner case 4, its own derivation: the pair `lwl`, `lwr`, in either order, loads the four bytes from any address `A` up as one word
of the machine's byte order. -/
def Obligations.UnalignedLoadPair : Prop :=
  ∀ (s : State) (rs rt : RegIdx) (immL immR : Half) (A : Word), rs ≠ rt → rt ≠ 0#5 → BytesValid s A 4 →
    effectiveAddress s rs immL = (match s.params.endian with | .little => A + 3#32 | .big => A) →
    effectiveAddress s rs immR = (match s.params.endian with | .little => A | .big => A + 3#32) →
    (∃ t u, exec (.lwl rs rt immL) s = .next t ∧ exec (.lwr rs rt immR) t = .next u ∧
      u.reg rt = s.memWord A) ∧
    ∃ t u, exec (.lwr rs rt immR) s = .next t ∧ exec (.lwl rs rt immL) t = .next u ∧
      u.reg rt = s.memWord A

/-! ### Stores (spec/46_store.md) -/

/-- R130: the low byte of the register, at any address; refused where the byte does not exist or is in `TEXT`. -/
def Obligations.StoreByteResults : Prop :=
  ∀ (s : State) (rs rt : RegIdx) (imm : Half),
    let ea := effectiveAddress s rs imm
    Spells (0b101000#6 ++ rs ++ rt ++ imm) (.sb rs rt imm) ∧
    (BytesWritable s ea 1 →
      ∃ t, exec (.sb rs rt imm) s = .next t ∧ Stored s t ea 1 (fun _ => byteOf (s.reg rt) 0)) ∧
    (¬ BytesWritable s ea 1 → ∃ r, exec (.sb rs rt imm) s = .refused r)

/-- R131: the low half of the register by `ENDIAN`; an odd address raises, whether or not it exists. -/
def Obligations.StoreHalfResults : Prop :=
  ∀ (s : State) (rs rt : RegIdx) (imm : Half),
    let ea := effectiveAddress s rs imm
    Spells (0b101001#6 ++ rs ++ rt ++ imm) (.sh rs rt imm) ∧
    (ea.toNat % 2 = 1 →
      ∃ t, exec (.sh rs rt imm) s = .next t ∧ Trapped s t ⟨.addressError .store, s.pc, some ea, none⟩) ∧
    (ea.toNat % 2 = 0 → BytesWritable s ea 2 →
      ∃ t, exec (.sh rs rt imm) s = .next t ∧ Stored s t ea 2 (fun i =>
        match s.params.endian with
        | .little => byteOf (s.reg rt) i
        | .big => byteOf (s.reg rt) (1 - i)) ∧ t.memHalf ea = (s.reg rt).extractLsb' 0 16) ∧
    (ea.toNat % 2 = 0 → ¬ BytesWritable s ea 2 → ∃ r, exec (.sh rs rt imm) s = .refused r)

/-- R132: the register by `ENDIAN`; an address that is no multiple of 4 raises, whether or not it exists. -/
def Obligations.StoreWordResults : Prop :=
  ∀ (s : State) (rs rt : RegIdx) (imm : Half),
    let ea := effectiveAddress s rs imm
    Spells (0b101011#6 ++ rs ++ rt ++ imm) (.sw rs rt imm) ∧
    (ea.toNat % 4 ≠ 0 →
      ∃ t, exec (.sw rs rt imm) s = .next t ∧ Trapped s t ⟨.addressError .store, s.pc, some ea, none⟩) ∧
    (ea.toNat % 4 = 0 → BytesWritable s ea 4 →
      ∃ t, exec (.sw rs rt imm) s = .next t ∧ Stored s t ea 4 (fun i =>
        match s.params.endian with
        | .little => byteOf (s.reg rt) i
        | .big => byteOf (s.reg rt) (3 - i)) ∧ t.memWord ea = s.reg rt) ∧
    (ea.toNat % 4 = 0 → ¬ BytesWritable s ea 4 → ∃ r, exec (.sw rs rt imm) s = .refused r)

/-- R133: the `k + 1` most significant bytes of the register, the top one at the addressed byte; only those bytes are
written and only they need to exist and be outside `TEXT`; no address raises. -/
def Obligations.StoreWordLeftResults : Prop :=
  ∀ (s : State) (rs rt : RegIdx) (imm : Half),
    let ea := effectiveAddress s rs imm
    let k := significance s.params.endian ea
    let start := leftStart s.params.endian ea
    Spells (0b101010#6 ++ rs ++ rt ++ imm) (.swl rs rt imm) ∧
    (BytesWritable s start (k + 1) →
      ∃ t, exec (.swl rs rt imm) s = .next t ∧ Stored s t start (k + 1) (fun i =>
        match s.params.endian with
        | .little => byteOf (s.reg rt) (3 - k + i)
        | .big => byteOf (s.reg rt) (3 - i)) ∧
      ∀ j < 4, byteOf (t.memWord (wordBase ea)) j =
        if j ≤ k then byteOf (s.reg rt) (3 - k + j) else byteOf (s.memWord (wordBase ea)) j) ∧
    (¬ BytesWritable s start (k + 1) → ∃ r, exec (.swl rs rt imm) s = .refused r)

/-- R134: the `4 - k` least significant bytes of the register, the lowest one at the addressed byte; only those bytes
are written and only they need to exist and be outside `TEXT`; no address raises. -/
def Obligations.StoreWordRightResults : Prop :=
  ∀ (s : State) (rs rt : RegIdx) (imm : Half),
    let ea := effectiveAddress s rs imm
    let k := significance s.params.endian ea
    let start := rightStart s.params.endian ea
    Spells (0b101110#6 ++ rs ++ rt ++ imm) (.swr rs rt imm) ∧
    (BytesWritable s start (4 - k) →
      ∃ t, exec (.swr rs rt imm) s = .next t ∧ Stored s t start (4 - k) (fun i =>
        match s.params.endian with
        | .little => byteOf (s.reg rt) i
        | .big => byteOf (s.reg rt) (3 - k - i)) ∧
      ∀ j < 4, byteOf (t.memWord (wordBase ea)) j =
        if j < k then byteOf (s.memWord (wordBase ea)) j else byteOf (s.reg rt) (j - k)) ∧
    (¬ BytesWritable s start (4 - k) → ∃ r, exec (.swr rs rt imm) s = .refused r)

/-- R133 corner case 3, its own derivation: the pair `swl`, `swr`, in either order, stores a register to the four bytes from any address `A`
up in the machine's byte order, and changes no other byte. -/
def Obligations.UnalignedStorePair : Prop :=
  ∀ (s : State) (rs rt : RegIdx) (immL immR : Half) (A : Word), BytesWritable s A 4 →
    effectiveAddress s rs immL = (match s.params.endian with | .little => A + 3#32 | .big => A) →
    effectiveAddress s rs immR = (match s.params.endian with | .little => A | .big => A + 3#32) →
    (∃ t u, exec (.swl rs rt immL) s = .next t ∧ exec (.swr rs rt immR) t = .next u ∧
      u.memWord A = s.reg rt ∧ ∀ a, (∀ i < 4, a ≠ A + BitVec.ofNat 32 i) → u.memByte a = s.memByte a) ∧
    ∃ t u, exec (.swr rs rt immR) s = .next t ∧ exec (.swl rs rt immL) t = .next u ∧
      u.memWord A = s.reg rt ∧ ∀ a, (∀ i < 4, a ≠ A + BitVec.ofNat 32 i) → u.memByte a = s.memByte a

/-- R34, its own derivation: after `sw` to an aligned address, `lbu` and `lhu` of its bytes and halves see the word's bytes where the byte
order puts them. -/
def Obligations.NarrowLoadsAfterStoreWord : Prop :=
  ∀ (s : State) (rs rt rq : RegIdx) (imm : Half) (off : Half),
    let A := effectiveAddress s rs 0
    let v := s.reg rt
    A.toNat % 4 = 0 → BytesWritable s A 4 → rq ≠ 0#5 → imm.toNat < 4 → off = 0 ∨ off = 2 →
    ∃ t, exec (.sw rs rt 0) s = .next t ∧
      (∃ u, exec (.lbu rs rq imm) t = .next u ∧
        u.reg rq = BitVec.ofNat 32 (byteOf v (match s.params.endian with
          | .little => imm.toNat
          | .big => 3 - imm.toNat)).toNat) ∧
      ∃ u, exec (.lhu rs rq off) t = .next u ∧
        u.reg rq = BitVec.ofNat 32 (v.toNat / (match s.params.endian with
          | .little => 2 ^ (8 * off.toNat)
          | .big => 2 ^ (16 - 8 * off.toNat)) % 2 ^ 16)

/-! ### Shifts (spec/47_shift.md) -/

/-- R141, R143, R145: by `sa`, as arithmetic on the value. -/
def Obligations.FixedShiftResults : Prop :=
  ∀ (s : State) (rt rd : RegIdx) (sa : BitVec 5),
    let a := s.reg rt
    Spells (0b000000#6 ++ 0b00000#5 ++ rt ++ rd ++ sa ++ 0b000000#6) (.sll rt rd sa) ∧
    (∃ t, exec (.sll rt rd sa) s = .next t ∧ RegWritten s t rd (BitVec.ofNat 32 (a.toNat * 2 ^ sa.toNat))) ∧
    Spells (0b000000#6 ++ 0b00000#5 ++ rt ++ rd ++ sa ++ 0b000011#6) (.sra rt rd sa) ∧
    (∃ t, exec (.sra rt rd sa) s = .next t ∧ RegWritten s t rd (BitVec.ofInt 32 (a.toInt / 2 ^ sa.toNat))) ∧
    Spells (0b000000#6 ++ 0b00000#5 ++ rt ++ rd ++ sa ++ 0b000010#6) (.srl rt rd sa) ∧
    ∃ t, exec (.srl rt rd sa) s = .next t ∧ RegWritten s t rd (BitVec.ofNat 32 (a.toNat / 2 ^ sa.toNat))

/-- R142, R144, R146: by the low five bits of `x[rs]`. -/
def Obligations.VariableShiftResults : Prop :=
  ∀ (s : State) (rs rt rd : RegIdx),
    let a := s.reg rt
    let n := (s.reg rs).toNat % 32
    Spells (0b000000#6 ++ rs ++ rt ++ rd ++ 0b00000#5 ++ 0b000100#6) (.sllv rs rt rd) ∧
    (∃ t, exec (.sllv rs rt rd) s = .next t ∧ RegWritten s t rd (BitVec.ofNat 32 (a.toNat * 2 ^ n))) ∧
    Spells (0b000000#6 ++ rs ++ rt ++ rd ++ 0b00000#5 ++ 0b000111#6) (.srav rs rt rd) ∧
    (∃ t, exec (.srav rs rt rd) s = .next t ∧ RegWritten s t rd (BitVec.ofInt 32 (a.toInt / 2 ^ n))) ∧
    Spells (0b000000#6 ++ rs ++ rt ++ rd ++ 0b00000#5 ++ 0b000110#6) (.srlv rs rt rd) ∧
    ∃ t, exec (.srlv rs rt rd) s = .next t ∧ RegWritten s t rd (BitVec.ofNat 32 (a.toNat / 2 ^ n))

/-! ### Compares and the system call (spec/48_compare.md, spec/49_system.md) -/

/-- R150 to R153: 1 or 0; `sltui` sign-extends its immediate and then compares unsigned. -/
def Obligations.CompareResults : Prop :=
  ∀ (s : State) (rs rt rd : RegIdx) (imm : Half),
    let a := s.reg rs
    let b := s.reg rt
    Spells (0b000000#6 ++ rs ++ rt ++ rd ++ 0b00000#5 ++ 0b101010#6) (.slt rs rt rd) ∧
    (∃ t, exec (.slt rs rt rd) s = .next t ∧
      RegWritten s t rd (if a.toInt < b.toInt then 1#32 else 0#32)) ∧
    Spells (0b001010#6 ++ rs ++ rt ++ imm) (.slti rs rt imm) ∧
    (∃ t, exec (.slti rs rt imm) s = .next t ∧
      RegWritten s t rt (if a.toInt < imm.toInt then 1#32 else 0#32)) ∧
    Spells (0b001011#6 ++ rs ++ rt ++ imm) (.sltui rs rt imm) ∧
    (∃ t, exec (.sltui rs rt imm) s = .next t ∧
      RegWritten s t rt (if (a.toNat : Int) < imm.toInt % 2 ^ 32 then 1#32 else 0#32)) ∧
    Spells (0b000000#6 ++ rs ++ rt ++ rd ++ 0b00000#5 ++ 0b101011#6) (.sltu rs rt rd) ∧
    ∃ t, exec (.sltu rs rt rd) s = .next t ∧ RegWritten s t rd (if a.toNat < b.toNat then 1#32 else 0#32)

/-- R160: with any code field, the trap record and nothing else. -/
def Obligations.SystemCallTraps : Prop :=
  ∀ (s : State) (code : BitVec 20),
    Spells (0b000000#6 ++ code ++ 0b001100#6) (.syscall code) ∧
    ∃ t, exec (.syscall code) s = .next t ∧ Trapped s t ⟨.systemCall, s.pc, none, none⟩

/-- R62, its own derivation: the all-zero word, where it can be fetched, changes nothing but `pc`. -/
def Obligations.ZeroWordChangesOnlyPc : Prop :=
  ∀ s : State, s.trap = none → Fetchable s → s.memWord s.pc = 0#32 →
    ∃ t, step s = .next t ∧ Transferred s t (s.pc + 4#32)
end

