-- ==== Sys2Proof/Laws/Encoding.lean ====
section
/-! SUPPORT. The fields of the three formats, their words under a mask, and a word put together from its own fields. -/

namespace Sys2Proof

section rFormat
variable (rs rt rd sa : BitVec 5) (funct : BitVec 6)
@[simp] theorem opField_rFormat : opField (rFormat rs rt rd sa funct) = 0#6 := by
  unfold opField rFormat; simp only [BitVec.extractLsb'_append_eq_ite]; simp
@[simp] theorem rsField_rFormat : rsField (rFormat rs rt rd sa funct) = rs := by
  unfold rsField rFormat; simp only [BitVec.extractLsb'_append_eq_ite]; simp
@[simp] theorem rtField_rFormat : rtField (rFormat rs rt rd sa funct) = rt := by
  unfold rtField rFormat; simp only [BitVec.extractLsb'_append_eq_ite]; simp
@[simp] theorem rdField_rFormat : rdField (rFormat rs rt rd sa funct) = rd := by
  unfold rdField rFormat; simp only [BitVec.extractLsb'_append_eq_ite]; simp
@[simp] theorem saField_rFormat : saField (rFormat rs rt rd sa funct) = sa := by
  unfold saField rFormat; simp only [BitVec.extractLsb'_append_eq_ite]; simp
@[simp] theorem functField_rFormat : functField (rFormat rs rt rd sa funct) = funct := by
  unfold functField rFormat; simp only [BitVec.extractLsb'_append_eq_ite]; simp
end rFormat

section iFormat
variable (op : BitVec 6) (rs rt : BitVec 5) (imm : Half)
@[simp] theorem opField_iFormat : opField (iFormat op rs rt imm) = op := by
  unfold opField iFormat; simp only [BitVec.extractLsb'_append_eq_ite]; simp
@[simp] theorem rsField_iFormat : rsField (iFormat op rs rt imm) = rs := by
  unfold rsField iFormat; simp only [BitVec.extractLsb'_append_eq_ite]; simp
@[simp] theorem rtField_iFormat : rtField (iFormat op rs rt imm) = rt := by
  unfold rtField iFormat; simp only [BitVec.extractLsb'_append_eq_ite]; simp
@[simp] theorem immField_iFormat : immField (iFormat op rs rt imm) = imm := by
  unfold immField iFormat; simp only [BitVec.extractLsb'_append_eq_ite]; simp
end iFormat

section jFormat
variable (op : BitVec 6) (target : BitVec 26)
@[simp] theorem opField_jFormat : opField (jFormat op target) = op := by
  unfold opField jFormat; simp only [BitVec.extractLsb'_append_eq_ite]; simp
@[simp] theorem targetField_jFormat : targetField (jFormat op target) = target := by
  unfold targetField jFormat; simp only [BitVec.extractLsb'_append_eq_ite]; simp
end jFormat

section syscallFormat
variable (code : BitVec 20)
@[simp] theorem opField_syscallFormat : opField (syscallFormat code) = 0#6 := by
  unfold opField syscallFormat; simp only [BitVec.extractLsb'_append_eq_ite]; simp
@[simp] theorem codeField_syscallFormat : codeField (syscallFormat code) = code := by
  unfold codeField syscallFormat; simp only [BitVec.extractLsb'_append_eq_ite]; simp
@[simp] theorem functField_syscallFormat : functField (syscallFormat code) = 12#6 := by
  unfold functField syscallFormat; simp only [BitVec.extractLsb'_append_eq_ite]; simp
end syscallFormat

/-! ### A word from its own fields -/

theorem word_of_rFields (w : Word) : opField w ++ rsField w ++ rtField w ++ rdField w ++ saField w ++ functField w = w := by
  unfold opField rsField rtField rdField saField functField
  rw [BitVec.extractLsb'_append_extractLsb'_eq_extractLsb' (by decide),
    BitVec.extractLsb'_append_extractLsb'_eq_extractLsb' (by decide),
    BitVec.extractLsb'_append_extractLsb'_eq_extractLsb' (by decide),
    BitVec.extractLsb'_append_extractLsb'_eq_extractLsb' (by decide),
    BitVec.extractLsb'_append_extractLsb'_eq_extractLsb' (by decide)]
  simp

theorem word_of_iFields (w : Word) : opField w ++ rsField w ++ rtField w ++ immField w = w := by
  unfold opField rsField rtField immField
  rw [BitVec.extractLsb'_append_extractLsb'_eq_extractLsb' (by decide),
    BitVec.extractLsb'_append_extractLsb'_eq_extractLsb' (by decide),
    BitVec.extractLsb'_append_extractLsb'_eq_extractLsb' (by decide)]
  simp

theorem word_of_jFields (w : Word) : opField w ++ targetField w = w := by
  unfold opField targetField
  rw [BitVec.extractLsb'_append_extractLsb'_eq_extractLsb' (by decide)]
  simp

theorem word_of_syscallFields (w : Word) : opField w ++ codeField w ++ functField w = w := by
  unfold opField codeField functField
  rw [BitVec.extractLsb'_append_extractLsb'_eq_extractLsb' (by decide),
    BitVec.extractLsb'_append_extractLsb'_eq_extractLsb' (by decide)]
  simp

/-! ### A format's word under a mask written as a word of the same shape -/

theorem rFormat_and (mop : BitVec 6) (rs rt rd sa mrs mrt mrd msa : BitVec 5) (funct mfunct : BitVec 6) :
    rFormat rs rt rd sa funct &&& (mop ++ mrs ++ mrt ++ mrd ++ msa ++ mfunct) =
      rFormat (rs &&& mrs) (rt &&& mrt) (rd &&& mrd) (sa &&& msa) (funct &&& mfunct) := by
  unfold rFormat
  refine BitVec.and_append.trans (congrArg (· ++ _) ?_)
  refine BitVec.and_append.trans (congrArg (· ++ _) ?_)
  refine BitVec.and_append.trans (congrArg (· ++ _) ?_)
  refine BitVec.and_append.trans (congrArg (· ++ _) ?_)
  refine BitVec.and_append.trans (congrArg (· ++ _) ?_)
  simp

theorem iFormat_and (op mop : BitVec 6) (rs rt mrs mrt : BitVec 5) (imm mimm : Half) :
    iFormat op rs rt imm &&& (mop ++ mrs ++ mrt ++ mimm) =
      iFormat (op &&& mop) (rs &&& mrs) (rt &&& mrt) (imm &&& mimm) := by
  unfold iFormat
  refine BitVec.and_append.trans (congrArg (· ++ _) ?_)
  refine BitVec.and_append.trans (congrArg (· ++ _) ?_)
  exact BitVec.and_append

theorem jFormat_and (op mop : BitVec 6) (target mtarget : BitVec 26) :
    jFormat op target &&& (mop ++ mtarget) = jFormat (op &&& mop) (target &&& mtarget) := BitVec.and_append

theorem syscallFormat_and (mop : BitVec 6) (code mcode : BitVec 20) (mfunct : BitVec 6) :
    syscallFormat code &&& (mop ++ mcode ++ mfunct) =
      0b000000#6 ++ (code &&& mcode) ++ (0b001100#6 &&& mfunct) := by
  unfold syscallFormat
  refine BitVec.and_append.trans (congrArg (· ++ _) ?_)
  refine BitVec.and_append.trans (congrArg (· ++ _) ?_)
  simp

end Sys2Proof
end

