-- ==== Sys2Proof/Laws/Memory.lean ====
section
/-! SUPPORT. Memory: a read after a write, and every write keeps the canonical form. -/

namespace Sys2Proof.Machine

@[simp] theorem readAt_nil (k : Nat) : Memory.readAt k [] = unlistedByte := rfl

@[simp] theorem readAt_cons (k : Nat) (c : Host.Cell) (m : Memory) :
    Memory.readAt k (c :: m) = if c.1 = k then c.2 else Memory.readAt k m := rfl

theorem readAt_list (k j : Nat) (b : Byte) (m : Memory) :
    Memory.readAt j (Memory.list k b m) = if j = k then b else Memory.readAt j m := by
  induction m with
  | nil => simp [Memory.list, eq_comm]
  | cons c m ih =>
    unfold Memory.list
    split
    · by_cases h : k = j <;> simp [h, eq_comm]
    · split
      · rename_i h; by_cases h' : k = j <;> simp [h, h', eq_comm]
      · simp only [readAt_cons, ih]
        by_cases h : c.1 = j
        · rename_i hk; have : j ≠ k := fun e => hk (h.trans e); simp [h, this]
        · simp [h]

theorem readAt_remove (k j : Nat) (m : Memory) :
    Memory.readAt j (m.filter fun c => c.1 != k) = if j = k then unlistedByte else Memory.readAt j m := by
  induction m with
  | nil => simp
  | cons c m ih =>
    by_cases h : c.1 = k
    · rw [List.filter_cons_of_neg (by simp [h]), ih, readAt_cons]
      by_cases hj : j = k
      · simp [hj]
      · simp [hj, show c.1 ≠ j from fun e => hj (e ▸ h)]
    · rw [List.filter_cons_of_pos (by simp [h]), readAt_cons, ih, readAt_cons]
      by_cases hc : c.1 = j
      · have : j ≠ k := fun e => h (hc.trans e)
        simp [hc, this]
      · simp [hc]

theorem readAt_writeAt (k j : Nat) (b : Byte) (m : Memory) :
    Memory.readAt j (Memory.writeAt k b m) = if j = k then b else Memory.readAt j m := by
  unfold Memory.writeAt
  split
  · rename_i h; rw [readAt_remove, h]
  · exact readAt_list k j b m

/-- A read after a write (R32, R34): it holds of every list, in canonical form or not. -/
theorem read_write (m : Memory) (a p : Word) (b : Byte) :
    (m.write p b).read a = if a = p then b else m.read a := by
  simp only [Memory.read, Memory.write, readAt_writeAt, ← BitVec.toNat_eq]

@[simp] theorem writeCells_nil (m : Memory) : m.writeCells [] = m := rfl

@[simp] theorem writeCells_cons (m : Memory) (c : Word × Byte) (cells : List (Word × Byte)) :
    m.writeCells (c :: cells) = (m.write c.1 c.2).writeCells cells := rfl

/-- A byte that is not among those written is unchanged. -/
theorem read_writeCells_other (cells : List (Word × Byte)) (m : Memory) (a : Word)
    (h : a ∉ cells.map (·.1)) : (m.writeCells cells).read a = m.read a := by
  induction cells generalizing m with
  | nil => rfl
  | cons c cells ih =>
    simp only [List.map_cons, List.mem_cons, not_or] at h
    rw [writeCells_cons, ih _ h.2, read_write, if_neg h.1]

/-- A byte written once reads as written. -/
theorem read_writeCells_mem (cells : List (Word × Byte)) (m : Memory) (c : Word × Byte)
    (hd : (cells.map (·.1)).Nodup) (hc : c ∈ cells) : (m.writeCells cells).read c.1 = c.2 := by
  induction cells generalizing m with
  | nil => simp at hc
  | cons d cells ih =>
    simp only [List.map_cons, List.nodup_cons] at hd
    obtain rfl | hc := List.mem_cons.mp hc
    · rw [writeCells_cons, read_writeCells_other _ _ _ hd.1, read_write, if_pos rfl]
    · rw [writeCells_cons, ih _ hd.2 hc]

/-! ### The canonical form -/

@[simp] theorem wf_nil : Memory.wf [] = true := rfl

theorem wf_cons (c : Host.Cell) (m : Memory) :
    Memory.wf (c :: m) = true ↔
      Memory.entryOk c = true ∧ (∀ d ∈ m, c.1 < d.1) ∧ Memory.wf m = true := by
  simp [Memory.wf, and_assoc]

theorem wf_filter (p : Host.Cell → Bool) (m : Memory) (h : m.wf = true) : Memory.wf (m.filter p) = true := by
  induction m with
  | nil => rfl
  | cons c m ih =>
    obtain ⟨h1, h2, h3⟩ := (wf_cons c m).mp h
    by_cases hp : p c = true
    · rw [List.filter_cons_of_pos hp, wf_cons]
      exact ⟨h1, fun d hd => h2 d (List.mem_filter.mp hd).1, ih h3⟩
    · rw [List.filter_cons_of_neg hp]; exact ih h3

theorem mem_list (k : Nat) (b : Byte) (m : Memory) (d : Host.Cell) (h : d ∈ Memory.list k b m) :
    d = (k, b) ∨ d ∈ m := by
  induction m with
  | nil => simpa [Memory.list] using h
  | cons c m ih =>
    unfold Memory.list at h
    split at h
    · simpa using h
    · split at h
      · rcases List.mem_cons.mp h with h | h
        · exact .inl h
        · exact .inr (List.mem_cons_of_mem _ h)
      · rcases List.mem_cons.mp h with h | h
        · exact .inr (h ▸ List.mem_cons_self)
        · exact (ih h).imp_right (List.mem_cons_of_mem _)

theorem wf_list (k : Nat) (b : Byte) (m : Memory) (hk : k < 2 ^ 32) (hb : b ≠ unlistedByte)
    (h : m.wf = true) : Memory.wf (Memory.list k b m) = true := by
  have ok : Memory.entryOk (k, b) = true := by
    simp only [Memory.entryOk, Bool.and_eq_true, decide_eq_true_eq, bne_iff_ne]; exact ⟨hk, hb⟩
  induction m with
  | nil => exact (wf_cons _ _).mpr ⟨ok, by simp, rfl⟩
  | cons c m ih =>
    obtain ⟨h1, h2, h3⟩ := (wf_cons c m).mp h
    unfold Memory.list
    split
    · rename_i hlt
      refine (wf_cons _ _).mpr ⟨ok, ?_, h⟩
      intro d hd
      rcases List.mem_cons.mp hd with rfl | hd
      · exact hlt
      · exact hlt.trans (h2 d hd)
    · split
      · rename_i heq
        exact (wf_cons _ _).mpr ⟨ok, fun d hd => heq ▸ h2 d hd, h3⟩
      · rename_i hlt hne
        refine (wf_cons _ _).mpr ⟨h1, ?_, ih h3⟩
        intro d hd
        rcases mem_list k b m d hd with rfl | hd
        · simp only; omega
        · exact h2 d hd

/-- One write keeps the canonical form. -/
theorem wf_write (m : Memory) (a : Word) (b : Byte) (h : m.wf = true) : (m.write a b).wf = true := by
  unfold Memory.write Memory.writeAt
  split
  · exact wf_filter _ m h
  · rename_i hb; exact wf_list _ b m a.isLt hb h

/-- Any number of writes keeps the canonical form. -/
theorem wf_writeCells (cells : List (Word × Byte)) (m : Memory) (h : m.wf = true) :
    (m.writeCells cells).wf = true := by
  induction cells generalizing m with
  | nil => exact h
  | cons c cells ih => exact ih _ (wf_write m c.1 c.2 h)

/-- Reset's memory has the canonical form. -/
theorem wf_reset : State.reset.mem.wf = true := rfl

end Sys2Proof.Machine
end

