-- ==== Sys2Proof/Laws/Operands.lean ====
section
/-! SUPPORT. The fields that an assembler emits for a label lead the hardware to the label (spec/30_encoding.md R57,
R58). -/

namespace Sys2Proof.Machine

/-- R58: a jump with the field of a reachable label goes to the label. -/
theorem jumpTarget_jumpField {pc label : Word} (h : jumpReaches pc label = true) :
    jumpTarget pc (jumpField label) = label := by
  simp only [jumpReaches, Bool.and_eq_true, beq_iff_eq] at h
  unfold jumpTarget jumpField
  rw [← h.2, ← h.1, BitVec.extractLsb'_append_extractLsb'_eq_extractLsb' (by decide),
    BitVec.extractLsb'_append_extractLsb'_eq_extractLsb' (by decide)]
  simp

/-- R57: a taken branch with the field of a reachable label goes to the label. -/
theorem branchTarget_branchOffset {pc label : Word} (h : branchReaches pc label = true) :
    branchTarget pc (branchOffset pc label) = label := by
  simp only [branchReaches, Bool.and_eq_true, decide_eq_true_eq] at h
  unfold branchTarget branchOffset
  generalize hd : label - (pc + 4#32) = d at h ⊢
  have key : sext (d.extractLsb' 2 16) <<< 2 = d := by
    have hn := d.isLt
    have hi := BitVec.toInt_eq_toNat_cond d
    have e : (sext (d.extractLsb' 2 16)).toInt = d.toInt / 4 := by
      unfold sext
      rw [BitVec.toInt_signExtend_of_le (by decide), BitVec.toInt_eq_toNat_cond]
      simp only [BitVec.extractLsb'_toNat, Nat.shiftRight_eq_div_pow]
      split at hi <;> split <;> omega
    apply BitVec.eq_of_toInt_eq
    rw [BitVec.shiftLeft_eq_mul_twoPow, BitVec.toInt_mul, e, show (BitVec.twoPow 32 2).toInt = 4 by decide,
      Int.bmod_eq_of_le] <;> omega
  rw [key, ← hd, BitVec.add_comm, BitVec.sub_add_cancel]

end Sys2Proof.Machine
end

