-- ==== Sys2Proof/Laws/State.lean ====
section
/-! SUPPORT. The fields of every state update, so that no proof unfolds one. -/

namespace Sys2Proof.Machine

section advance
variable (s : State)
@[simp] theorem advance_regs : s.advance.regs = s.regs := rfl
@[simp] theorem advance_reg (r : RegIdx) : s.advance.reg r = s.reg r := rfl
@[simp] theorem advance_pc : s.advance.pc = s.pc + 4#32 := rfl
@[simp] theorem advance_hi : s.advance.hi = s.hi := rfl
@[simp] theorem advance_lo : s.advance.lo = s.lo := rfl
@[simp] theorem advance_mem : s.advance.mem = s.mem := rfl
@[simp] theorem advance_trap : s.advance.trap = s.trap := rfl
@[simp] theorem advance_params : s.advance.params = s.params := rfl
@[simp] theorem advance_draws : s.advance.draws = s.draws := rfl
@[simp] theorem advance_memByte (a : Word) : s.advance.memByte a = s.memByte a := rfl
end advance

section jumpTo
variable (s : State) (target : Word)
@[simp] theorem jumpTo_regs : (s.jumpTo target).regs = s.regs := rfl
@[simp] theorem jumpTo_reg (r : RegIdx) : (s.jumpTo target).reg r = s.reg r := rfl
@[simp] theorem jumpTo_pc : (s.jumpTo target).pc = target := rfl
@[simp] theorem jumpTo_hi : (s.jumpTo target).hi = s.hi := rfl
@[simp] theorem jumpTo_lo : (s.jumpTo target).lo = s.lo := rfl
@[simp] theorem jumpTo_mem : (s.jumpTo target).mem = s.mem := rfl
@[simp] theorem jumpTo_trap : (s.jumpTo target).trap = s.trap := rfl
@[simp] theorem jumpTo_params : (s.jumpTo target).params = s.params := rfl
@[simp] theorem jumpTo_draws : (s.jumpTo target).draws = s.draws := rfl
@[simp] theorem jumpTo_memByte (a : Word) : (s.jumpTo target).memByte a = s.memByte a := rfl
end jumpTo

section takeException
variable (e : Exception) (s : State)
@[simp] theorem takeException_regs : (takeException e s).regs = s.regs := rfl
@[simp] theorem takeException_reg (r : RegIdx) : (takeException e s).reg r = s.reg r := rfl
@[simp] theorem takeException_pc : (takeException e s).pc = s.pc := rfl
@[simp] theorem takeException_hi : (takeException e s).hi = s.hi := rfl
@[simp] theorem takeException_lo : (takeException e s).lo = s.lo := rfl
@[simp] theorem takeException_mem : (takeException e s).mem = s.mem := rfl
@[simp] theorem takeException_trap : (takeException e s).trap = some (e.record s.pc) := rfl
@[simp] theorem takeException_params : (takeException e s).params = s.params := rfl
@[simp] theorem takeException_draws : (takeException e s).draws = s.draws := rfl
@[simp] theorem takeException_memByte (a : Word) : (takeException e s).memByte a = s.memByte a := rfl
@[simp] theorem record_epc (pc : Word) : (e.record pc).epc = pc := by cases e <;> rfl
end takeException

section setReg
variable (s : State) (r : RegIdx) (v : Word)

/-- What a register write leaves of the fields, said once: it is the state or the state with new registers. -/
theorem setReg_cases : s.setReg r v = s ∨ ∃ regs, s.setReg r v = { s with regs := regs } := by
  unfold State.setReg
  split
  · exact .inl rfl
  · exact .inr ⟨_, rfl⟩

@[simp] theorem setReg_pc : (s.setReg r v).pc = s.pc := by
  obtain h | ⟨_, h⟩ := setReg_cases s r v <;> simp [h]
@[simp] theorem setReg_hi : (s.setReg r v).hi = s.hi := by
  obtain h | ⟨_, h⟩ := setReg_cases s r v <;> simp [h]
@[simp] theorem setReg_lo : (s.setReg r v).lo = s.lo := by
  obtain h | ⟨_, h⟩ := setReg_cases s r v <;> simp [h]
@[simp] theorem setReg_mem : (s.setReg r v).mem = s.mem := by
  obtain h | ⟨_, h⟩ := setReg_cases s r v <;> simp [h]
@[simp] theorem setReg_trap : (s.setReg r v).trap = s.trap := by
  obtain h | ⟨_, h⟩ := setReg_cases s r v <;> simp [h]
@[simp] theorem setReg_params : (s.setReg r v).params = s.params := by
  obtain h | ⟨_, h⟩ := setReg_cases s r v <;> simp [h]
@[simp] theorem setReg_draws : (s.setReg r v).draws = s.draws := by
  obtain h | ⟨_, h⟩ := setReg_cases s r v <;> simp [h]
@[simp] theorem setReg_memByte (a : Word) : (s.setReg r v).memByte a = s.memByte a := by
  simp [State.memByte]

/-- A write to register 0 is discarded. -/
@[simp] theorem setReg_zero : s.setReg 0#5 v = s := rfl

/-- Register 0 reads as zero. -/
@[simp] theorem reg_zero : s.reg 0#5 = 0#32 := rfl

/-- A register read after a register write. -/
theorem setReg_reg (q : RegIdx) : (s.setReg r v).reg q = if q = r ∧ q ≠ 0#5 then v else s.reg q := by
  by_cases hq : q = 0#5
  · subst hq; simp
  · by_cases hr : r = 0#5
    · subst hr; simp [hq]
    · have hne : q = r ↔ r.toNat = q.toNat := by
        rw [eq_comm, BitVec.toNat_eq]
      simp [State.setReg, State.reg, hq, hr, Vector.getElem_set, hne]

/-- The storage of register 0 is never written. -/
theorem setReg_storage_zero : (s.setReg r v).regs[0] = s.regs[0] := by
  unfold State.setReg
  split
  · rfl
  · rename_i h
    have : r.toNat ≠ 0 := fun h0 => h (by simpa using BitVec.eq_of_toNat_eq (y := 0#5) (by simpa using h0))
    simp [this]
end setReg

section hiLo
variable (s : State) (hi lo : Word) (n : Nat) (m : Memory)
@[simp] theorem withHiLo_reg (r : RegIdx) : State.reg { s with hi := hi, lo := lo } r = s.reg r := rfl
@[simp] theorem withHiLo_memByte (a : Word) : State.memByte { s with hi := hi, lo := lo } a = s.memByte a := rfl
@[simp] theorem withDraws_reg (r : RegIdx) :
    State.reg { s with lo := lo, hi := hi, draws := n } r = s.reg r := rfl
@[simp] theorem withDraws_memByte (a : Word) :
    State.memByte { s with lo := lo, hi := hi, draws := n } a = s.memByte a := rfl
@[simp] theorem withMem_reg (r : RegIdx) : State.reg { s with mem := m } r = s.reg r := rfl
@[simp] theorem withMem_memByte (a : Word) : State.memByte { s with mem := m } a = m.read a := rfl
end hiLo

end Sys2Proof.Machine
end

