-- ==== Sys2Proof/Laws/Ops.lean ====
section
/-! SUPPORT. For each shared operation, once, everything it can do. -/

namespace Sys2Proof.Machine

theorem writeReg_next {r : RegIdx} {v : Word} {s t : State} (h : writeReg r v s = .next t) :
    t = (s.setReg r v).advance := by cases h; rfl

theorem writeHiLo_next {hi lo : Word} {s t : State} (h : writeHiLo hi lo s = .next t) :
    t = { s with hi := hi, lo := lo }.advance := by cases h; rfl

theorem drawHiLo_next {s t : State} (h : drawHiLo s = .next t) :
    t = { s with
      lo := Config.draw s.draws, hi := Config.draw (s.draws + 1), draws := s.draws + 2 }.advance := by
  cases h; rfl

theorem raise_next {e : Exception} {s t : State} (h : raise e s = .next t) : t = takeException e s := by
  cases h; rfl

/-- An access is not refused exactly when all its bytes are in `MEM_VALID`. -/
theorem refuseAccess_eq_none {k : AccessKind} {addrs : List Word} {s : State} :
    refuseAccess k addrs s = none ↔ ∀ a ∈ addrs, s.validAddr a = true := by
  simp [refuseAccess]

/-- A refused access names one of its bytes, outside `MEM_VALID`. -/
theorem refuseAccess_eq_some {k : AccessKind} {addrs : List Word} {s : State} {r : Refusal}
    (h : refuseAccess k addrs s = some r) :
    ∃ a ∈ addrs, s.validAddr a = false ∧ r = .outsideMemory k a := by
  obtain ⟨a, ha, rfl⟩ := Option.map_eq_some_iff.mp h
  exact ⟨a, List.mem_of_find?_eq_some ha, by simpa using List.find?_some ha, rfl⟩

theorem refuseStore_eq_none {addrs : List Word} {s : State} :
    refuseStore addrs s = none ↔ ∀ a ∈ addrs, s.validAddr a = true ∧ s.inText a = false := by
  simp only [refuseStore, Option.or_eq_none_iff, refuseAccess_eq_none, Option.map_eq_none_iff,
    List.find?_eq_none, Bool.not_eq_true]
  exact ⟨fun h a ha => ⟨h.1 a ha, h.2 a ha⟩, fun h => ⟨fun a ha => (h a ha).1, fun a ha => (h a ha).2⟩⟩

/-- A refused store names one of its bytes, outside `MEM_VALID` or inside `TEXT`. -/
theorem refuseStore_eq_some {addrs : List Word} {s : State} {r : Refusal} (h : refuseStore addrs s = some r) :
    ∃ a ∈ addrs, (s.validAddr a = false ∧ r = .outsideMemory .store a) ∨
      (s.inText a = true ∧ r = .storeIntoText a) := by
  rcases Option.or_eq_some_iff.mp h with h | ⟨_, h⟩
  · obtain ⟨a, ha, hv, hr⟩ := refuseAccess_eq_some h
    exact ⟨a, ha, .inl ⟨hv, hr⟩⟩
  · obtain ⟨a, ha, rfl⟩ := Option.map_eq_some_iff.mp h
    exact ⟨a, List.mem_of_find?_eq_some ha, .inr ⟨List.find?_some ha, rfl⟩⟩

theorem refuseFetch_eq_none {addrs : List Word} {s : State} :
    refuseFetch addrs s = none ↔ ∀ a ∈ addrs, s.validAddr a = true ∧ s.inText a = true := by
  simp only [refuseFetch, Option.or_eq_none_iff, refuseAccess_eq_none, Option.map_eq_none_iff,
    List.find?_eq_none, Bool.not_eq_true, Bool.not_eq_false']
  exact ⟨fun h a ha => ⟨h.1 a ha, h.2 a ha⟩, fun h => ⟨fun a ha => (h a ha).1, fun a ha => (h a ha).2⟩⟩

/-- A refused fetch names one of its bytes, outside `MEM_VALID` or outside `TEXT`. -/
theorem refuseFetch_eq_some {addrs : List Word} {s : State} {r : Refusal} (h : refuseFetch addrs s = some r) :
    ∃ a ∈ addrs, (s.validAddr a = false ∧ r = .outsideMemory .fetch a) ∨
      (s.inText a = false ∧ r = .fetchOutsideText a) := by
  rcases Option.or_eq_some_iff.mp h with h | ⟨_, h⟩
  · obtain ⟨a, ha, hv, hr⟩ := refuseAccess_eq_some h
    exact ⟨a, ha, .inl ⟨hv, hr⟩⟩
  · obtain ⟨a, ha, rfl⟩ := Option.map_eq_some_iff.mp h
    exact ⟨a, List.mem_of_find?_eq_some ha, .inr ⟨by simpa using List.find?_some ha, rfl⟩⟩

/-- A load that completes has all its bytes in `MEM_VALID` and writes its register. -/
theorem loadReg_next {rt : RegIdx} {addrs : List Word} {v : Word} {s t : State}
    (h : loadReg rt addrs v s = .next t) :
    (∀ a ∈ addrs, s.validAddr a = true) ∧ t = (s.setReg rt v).advance := by
  unfold loadReg at h
  split at h
  · cases h
  · rename_i hr; exact ⟨refuseAccess_eq_none.mp hr, writeReg_next h⟩

/-- A load whose bytes are all in `MEM_VALID` completes. -/
theorem loadReg_valid {rt : RegIdx} {addrs : List Word} {v : Word} {s : State}
    (h : ∀ a ∈ addrs, s.validAddr a = true) : loadReg rt addrs v s = .next (s.setReg rt v).advance := by
  simp [loadReg, refuseAccess_eq_none.mpr h, writeReg]

/-- A store that completes has all its bytes in `MEM_VALID` and none in `TEXT`, and writes them all. -/
theorem storeBytes_next {cells : List (Word × Byte)} {s t : State} (h : storeBytes cells s = .next t) :
    (∀ a ∈ cells.map (·.1), s.validAddr a = true ∧ s.inText a = false) ∧
      t = { s with mem := s.mem.writeCells cells }.advance := by
  unfold storeBytes at h
  split at h
  · cases h
  · rename_i hr; cases h; exact ⟨refuseStore_eq_none.mp hr, rfl⟩

/-- A store whose bytes are all in `MEM_VALID` and none in `TEXT` completes. -/
theorem storeBytes_writable {cells : List (Word × Byte)} {s : State}
    (h : ∀ a ∈ cells.map (·.1), s.validAddr a = true ∧ s.inText a = false) :
    storeBytes cells s = .next { s with mem := s.mem.writeCells cells }.advance := by
  simp [storeBytes, refuseStore_eq_none.mpr h]

/-- A completed store leaves every byte outside its own unchanged. -/
theorem storeBytes_frame {cells : List (Word × Byte)} {s t : State} (h : storeBytes cells s = .next t)
    (a : Word) (ha : a ∉ cells.map (·.1)) : t.memByte a = s.memByte a := by
  obtain ⟨_, rfl⟩ := storeBytes_next h
  exact read_writeCells_other cells s.mem a ha

end Sys2Proof.Machine
end

