-- ==== Sys2Proof/Laws/PerInstr.lean ====
section
/-! SUPPORT. One lemma per instruction: its encoding meets the mask and pattern of its own row of
spec/opcode_table.json (spec/30_encoding.md R60). -/

namespace Sys2Proof.Laws.EncodeMeetsRow

/-- The instruction's word spells its row of the opcode table. -/
def Statement (i : Instr) : Prop := encode i &&& i.opcodeRow.mask = i.opcodeRow.pattern

theorem add (rs rt rd : RegIdx) : Statement (.add rs rt rd) := by
  exact (rFormat_and 0x3f#6 rs rt rd 0 0x0#5 0x0#5 0x0#5 0x1f#5 0x20#6 0x3f#6).trans (by simp [rFormat, Instr.opcodeRow])

theorem addi (rs rt : RegIdx) (imm : Half) : Statement (.addi rs rt imm) := by
  exact (iFormat_and 0x8#6 0x3f#6 rs rt 0x0#5 0x0#5 imm 0#16).trans (by simp [iFormat, Instr.opcodeRow])

theorem addiu (rs rt : RegIdx) (imm : Half) : Statement (.addiu rs rt imm) := by
  exact (iFormat_and 0x9#6 0x3f#6 rs rt 0x0#5 0x0#5 imm 0#16).trans (by simp [iFormat, Instr.opcodeRow])

theorem addu (rs rt rd : RegIdx) : Statement (.addu rs rt rd) := by
  exact (rFormat_and 0x3f#6 rs rt rd 0 0x0#5 0x0#5 0x0#5 0x1f#5 0x21#6 0x3f#6).trans (by simp [rFormat, Instr.opcodeRow])

theorem sub (rs rt rd : RegIdx) : Statement (.sub rs rt rd) := by
  exact (rFormat_and 0x3f#6 rs rt rd 0 0x0#5 0x0#5 0x0#5 0x1f#5 0x22#6 0x3f#6).trans (by simp [rFormat, Instr.opcodeRow])

theorem subu (rs rt rd : RegIdx) : Statement (.subu rs rt rd) := by
  exact (rFormat_and 0x3f#6 rs rt rd 0 0x0#5 0x0#5 0x0#5 0x1f#5 0x23#6 0x3f#6).trans (by simp [rFormat, Instr.opcodeRow])

theorem and (rs rt rd : RegIdx) : Statement (.and rs rt rd) := by
  exact (rFormat_and 0x3f#6 rs rt rd 0 0x0#5 0x0#5 0x0#5 0x1f#5 0x24#6 0x3f#6).trans (by simp [rFormat, Instr.opcodeRow])

theorem andi (rs rt : RegIdx) (imm : Half) : Statement (.andi rs rt imm) := by
  exact (iFormat_and 0xc#6 0x3f#6 rs rt 0x0#5 0x0#5 imm 0#16).trans (by simp [iFormat, Instr.opcodeRow])

theorem lui (rt : RegIdx) (imm : Half) : Statement (.lui rt imm) := by
  exact (iFormat_and 0xf#6 0x3f#6 0 rt 0x1f#5 0x0#5 imm 0#16).trans (by simp [iFormat, Instr.opcodeRow])

theorem nor (rs rt rd : RegIdx) : Statement (.nor rs rt rd) := by
  exact (rFormat_and 0x3f#6 rs rt rd 0 0x0#5 0x0#5 0x0#5 0x1f#5 0x27#6 0x3f#6).trans (by simp [rFormat, Instr.opcodeRow])

theorem or (rs rt rd : RegIdx) : Statement (.or rs rt rd) := by
  exact (rFormat_and 0x3f#6 rs rt rd 0 0x0#5 0x0#5 0x0#5 0x1f#5 0x25#6 0x3f#6).trans (by simp [rFormat, Instr.opcodeRow])

theorem ori (rs rt : RegIdx) (imm : Half) : Statement (.ori rs rt imm) := by
  exact (iFormat_and 0xd#6 0x3f#6 rs rt 0x0#5 0x0#5 imm 0#16).trans (by simp [iFormat, Instr.opcodeRow])

theorem xor (rs rt rd : RegIdx) : Statement (.xor rs rt rd) := by
  exact (rFormat_and 0x3f#6 rs rt rd 0 0x0#5 0x0#5 0x0#5 0x1f#5 0x26#6 0x3f#6).trans (by simp [rFormat, Instr.opcodeRow])

theorem xori (rs rt : RegIdx) (imm : Half) : Statement (.xori rs rt imm) := by
  exact (iFormat_and 0xe#6 0x3f#6 rs rt 0x0#5 0x0#5 imm 0#16).trans (by simp [iFormat, Instr.opcodeRow])

theorem beq (rs rt : RegIdx) (imm : Half) : Statement (.beq rs rt imm) := by
  exact (iFormat_and 0x4#6 0x3f#6 rs rt 0x0#5 0x0#5 imm 0#16).trans (by simp [iFormat, Instr.opcodeRow])

theorem bgez (rs : RegIdx) (imm : Half) : Statement (.bgez rs imm) := by
  exact (iFormat_and 0x1#6 0x3f#6 rs 0x1#5 0x0#5 0x1f#5 imm 0#16).trans (by simp [iFormat, Instr.opcodeRow])

theorem bgezal (rs : RegIdx) (imm : Half) : Statement (.bgezal rs imm) := by
  exact (iFormat_and 0x1#6 0x3f#6 rs 0x11#5 0x0#5 0x1f#5 imm 0#16).trans (by simp [iFormat, Instr.opcodeRow])

theorem bgtz (rs : RegIdx) (imm : Half) : Statement (.bgtz rs imm) := by
  exact (iFormat_and 0x7#6 0x3f#6 rs 0x0#5 0x0#5 0x1f#5 imm 0#16).trans (by simp [iFormat, Instr.opcodeRow])

theorem blez (rs : RegIdx) (imm : Half) : Statement (.blez rs imm) := by
  exact (iFormat_and 0x6#6 0x3f#6 rs 0x0#5 0x0#5 0x1f#5 imm 0#16).trans (by simp [iFormat, Instr.opcodeRow])

theorem bltzal (rs : RegIdx) (imm : Half) : Statement (.bltzal rs imm) := by
  exact (iFormat_and 0x1#6 0x3f#6 rs 0x10#5 0x0#5 0x1f#5 imm 0#16).trans (by simp [iFormat, Instr.opcodeRow])

theorem bltz (rs : RegIdx) (imm : Half) : Statement (.bltz rs imm) := by
  exact (iFormat_and 0x1#6 0x3f#6 rs 0x0#5 0x0#5 0x1f#5 imm 0#16).trans (by simp [iFormat, Instr.opcodeRow])

theorem bne (rs rt : RegIdx) (imm : Half) : Statement (.bne rs rt imm) := by
  exact (iFormat_and 0x5#6 0x3f#6 rs rt 0x0#5 0x0#5 imm 0#16).trans (by simp [iFormat, Instr.opcodeRow])

theorem div (rs rt : RegIdx) : Statement (.div rs rt) := by
  exact (rFormat_and 0x3f#6 rs rt 0 0 0x0#5 0x0#5 0x1f#5 0x1f#5 0x1a#6 0x3f#6).trans (by simp [rFormat, Instr.opcodeRow])

theorem divu (rs rt : RegIdx) : Statement (.divu rs rt) := by
  exact (rFormat_and 0x3f#6 rs rt 0 0 0x0#5 0x0#5 0x1f#5 0x1f#5 0x1b#6 0x3f#6).trans (by simp [rFormat, Instr.opcodeRow])

theorem mfhi (rd : RegIdx) : Statement (.mfhi rd) := by
  exact (rFormat_and 0x3f#6 0 0 rd 0 0x1f#5 0x1f#5 0x0#5 0x1f#5 0x10#6 0x3f#6).trans (by simp [rFormat, Instr.opcodeRow])

theorem mflo (rd : RegIdx) : Statement (.mflo rd) := by
  exact (rFormat_and 0x3f#6 0 0 rd 0 0x1f#5 0x1f#5 0x0#5 0x1f#5 0x12#6 0x3f#6).trans (by simp [rFormat, Instr.opcodeRow])

theorem mthi (rs : RegIdx) : Statement (.mthi rs) := by
  exact (rFormat_and 0x3f#6 rs 0 0 0 0x0#5 0x1f#5 0x1f#5 0x1f#5 0x11#6 0x3f#6).trans (by simp [rFormat, Instr.opcodeRow])

theorem mtlo (rs : RegIdx) : Statement (.mtlo rs) := by
  exact (rFormat_and 0x3f#6 rs 0 0 0 0x0#5 0x1f#5 0x1f#5 0x1f#5 0x13#6 0x3f#6).trans (by simp [rFormat, Instr.opcodeRow])

theorem mult (rs rt : RegIdx) : Statement (.mult rs rt) := by
  exact (rFormat_and 0x3f#6 rs rt 0 0 0x0#5 0x0#5 0x1f#5 0x1f#5 0x18#6 0x3f#6).trans (by simp [rFormat, Instr.opcodeRow])

theorem multu (rs rt : RegIdx) : Statement (.multu rs rt) := by
  exact (rFormat_and 0x3f#6 rs rt 0 0 0x0#5 0x0#5 0x1f#5 0x1f#5 0x19#6 0x3f#6).trans (by simp [rFormat, Instr.opcodeRow])

theorem j (target : BitVec 26) : Statement (.j target) := by
  exact (jFormat_and 0x2#6 0x3f#6 target 0#26).trans (by simp [jFormat, Instr.opcodeRow])

theorem jal (target : BitVec 26) : Statement (.jal target) := by
  exact (jFormat_and 0x3#6 0x3f#6 target 0#26).trans (by simp [jFormat, Instr.opcodeRow])

theorem jlr (rs rd : RegIdx) : Statement (.jlr rs rd) := by
  exact (rFormat_and 0x3f#6 rs 0 rd 0 0x0#5 0x1f#5 0x0#5 0x1f#5 0x9#6 0x3f#6).trans (by simp [rFormat, Instr.opcodeRow])

theorem jr (rs : RegIdx) : Statement (.jr rs) := by
  exact (rFormat_and 0x3f#6 rs 0 0 0 0x0#5 0x1f#5 0x1f#5 0x1f#5 0x8#6 0x3f#6).trans (by simp [rFormat, Instr.opcodeRow])

theorem lb (rs rt : RegIdx) (imm : Half) : Statement (.lb rs rt imm) := by
  exact (iFormat_and 0x20#6 0x3f#6 rs rt 0x0#5 0x0#5 imm 0#16).trans (by simp [iFormat, Instr.opcodeRow])

theorem lbu (rs rt : RegIdx) (imm : Half) : Statement (.lbu rs rt imm) := by
  exact (iFormat_and 0x24#6 0x3f#6 rs rt 0x0#5 0x0#5 imm 0#16).trans (by simp [iFormat, Instr.opcodeRow])

theorem lh (rs rt : RegIdx) (imm : Half) : Statement (.lh rs rt imm) := by
  exact (iFormat_and 0x21#6 0x3f#6 rs rt 0x0#5 0x0#5 imm 0#16).trans (by simp [iFormat, Instr.opcodeRow])

theorem lhu (rs rt : RegIdx) (imm : Half) : Statement (.lhu rs rt imm) := by
  exact (iFormat_and 0x25#6 0x3f#6 rs rt 0x0#5 0x0#5 imm 0#16).trans (by simp [iFormat, Instr.opcodeRow])

theorem lw (rs rt : RegIdx) (imm : Half) : Statement (.lw rs rt imm) := by
  exact (iFormat_and 0x23#6 0x3f#6 rs rt 0x0#5 0x0#5 imm 0#16).trans (by simp [iFormat, Instr.opcodeRow])

theorem lwl (rs rt : RegIdx) (imm : Half) : Statement (.lwl rs rt imm) := by
  exact (iFormat_and 0x22#6 0x3f#6 rs rt 0x0#5 0x0#5 imm 0#16).trans (by simp [iFormat, Instr.opcodeRow])

theorem lwr (rs rt : RegIdx) (imm : Half) : Statement (.lwr rs rt imm) := by
  exact (iFormat_and 0x26#6 0x3f#6 rs rt 0x0#5 0x0#5 imm 0#16).trans (by simp [iFormat, Instr.opcodeRow])

theorem sb (rs rt : RegIdx) (imm : Half) : Statement (.sb rs rt imm) := by
  exact (iFormat_and 0x28#6 0x3f#6 rs rt 0x0#5 0x0#5 imm 0#16).trans (by simp [iFormat, Instr.opcodeRow])

theorem sh (rs rt : RegIdx) (imm : Half) : Statement (.sh rs rt imm) := by
  exact (iFormat_and 0x29#6 0x3f#6 rs rt 0x0#5 0x0#5 imm 0#16).trans (by simp [iFormat, Instr.opcodeRow])

theorem sw (rs rt : RegIdx) (imm : Half) : Statement (.sw rs rt imm) := by
  exact (iFormat_and 0x2b#6 0x3f#6 rs rt 0x0#5 0x0#5 imm 0#16).trans (by simp [iFormat, Instr.opcodeRow])

theorem swl (rs rt : RegIdx) (imm : Half) : Statement (.swl rs rt imm) := by
  exact (iFormat_and 0x2a#6 0x3f#6 rs rt 0x0#5 0x0#5 imm 0#16).trans (by simp [iFormat, Instr.opcodeRow])

theorem swr (rs rt : RegIdx) (imm : Half) : Statement (.swr rs rt imm) := by
  exact (iFormat_and 0x2e#6 0x3f#6 rs rt 0x0#5 0x0#5 imm 0#16).trans (by simp [iFormat, Instr.opcodeRow])

theorem sll (rt rd : RegIdx) (sa : BitVec 5) : Statement (.sll rt rd sa) := by
  exact (rFormat_and 0x3f#6 0 rt rd sa 0x1f#5 0x0#5 0x0#5 0x0#5 0x0#6 0x3f#6).trans (by simp [rFormat, Instr.opcodeRow])

theorem sllv (rs rt rd : RegIdx) : Statement (.sllv rs rt rd) := by
  exact (rFormat_and 0x3f#6 rs rt rd 0 0x0#5 0x0#5 0x0#5 0x1f#5 0x4#6 0x3f#6).trans (by simp [rFormat, Instr.opcodeRow])

theorem sra (rt rd : RegIdx) (sa : BitVec 5) : Statement (.sra rt rd sa) := by
  exact (rFormat_and 0x3f#6 0 rt rd sa 0x1f#5 0x0#5 0x0#5 0x0#5 0x3#6 0x3f#6).trans (by simp [rFormat, Instr.opcodeRow])

theorem srav (rs rt rd : RegIdx) : Statement (.srav rs rt rd) := by
  exact (rFormat_and 0x3f#6 rs rt rd 0 0x0#5 0x0#5 0x0#5 0x1f#5 0x7#6 0x3f#6).trans (by simp [rFormat, Instr.opcodeRow])

theorem srl (rt rd : RegIdx) (sa : BitVec 5) : Statement (.srl rt rd sa) := by
  exact (rFormat_and 0x3f#6 0 rt rd sa 0x1f#5 0x0#5 0x0#5 0x0#5 0x2#6 0x3f#6).trans (by simp [rFormat, Instr.opcodeRow])

theorem srlv (rs rt rd : RegIdx) : Statement (.srlv rs rt rd) := by
  exact (rFormat_and 0x3f#6 rs rt rd 0 0x0#5 0x0#5 0x0#5 0x1f#5 0x6#6 0x3f#6).trans (by simp [rFormat, Instr.opcodeRow])

theorem slt (rs rt rd : RegIdx) : Statement (.slt rs rt rd) := by
  exact (rFormat_and 0x3f#6 rs rt rd 0 0x0#5 0x0#5 0x0#5 0x1f#5 0x2a#6 0x3f#6).trans (by simp [rFormat, Instr.opcodeRow])

theorem slti (rs rt : RegIdx) (imm : Half) : Statement (.slti rs rt imm) := by
  exact (iFormat_and 0xa#6 0x3f#6 rs rt 0x0#5 0x0#5 imm 0#16).trans (by simp [iFormat, Instr.opcodeRow])

theorem sltui (rs rt : RegIdx) (imm : Half) : Statement (.sltui rs rt imm) := by
  exact (iFormat_and 0xb#6 0x3f#6 rs rt 0x0#5 0x0#5 imm 0#16).trans (by simp [iFormat, Instr.opcodeRow])

theorem sltu (rs rt rd : RegIdx) : Statement (.sltu rs rt rd) := by
  exact (rFormat_and 0x3f#6 rs rt rd 0 0x0#5 0x0#5 0x0#5 0x1f#5 0x2b#6 0x3f#6).trans (by simp [rFormat, Instr.opcodeRow])

theorem syscall (code : BitVec 20) : Statement (.syscall code) := by
  exact (syscallFormat_and 0x3f#6 code 0#20 0x3f#6).trans (by simp [Instr.opcodeRow])

end Sys2Proof.Laws.EncodeMeetsRow
end

