-- ==== Sys2Proof/Tests/Slice0.lean ====
section
/-! SUPPORT. Tests of the model. Expected values are from the spec: words and results from the Example and Corner
cases parts of the instruction rules. The last part shows, for each obligation with hypotheses, a state and operands
that meet them. -/

namespace Sys2Proof.Tests

open Sys2Proof Machine

/-! ### Well-formedness -/

theorem test_jlr_same_register_ill_formed : Instr.wellFormed (.jlr 25 25) = false := by decide
theorem test_jlr_zero_zero_well_formed : Instr.wellFormed (.jlr 0 0) = true := by decide
theorem test_jlr_well_formed : Instr.wellFormed (.jlr 25 31) = true := by decide

/-! ### Decoding: the word of each rule's Example -/

theorem test_decode_add : decode 0x01095020#32 = .ok (.add 8 9 10) := by decide
theorem test_decode_addi : decode 0x2109FFFF#32 = .ok (.addi 8 9 0xFFFF) := by decide
theorem test_decode_addiu : decode 0x25098000#32 = .ok (.addiu 8 9 0x8000) := by decide
theorem test_decode_addu : decode 0x01095021#32 = .ok (.addu 8 9 10) := by decide
theorem test_decode_sub : decode 0x01095022#32 = .ok (.sub 8 9 10) := by decide
theorem test_decode_subu : decode 0x01095023#32 = .ok (.subu 8 9 10) := by decide
theorem test_decode_and : decode 0x01095024#32 = .ok (.and 8 9 10) := by decide
theorem test_decode_andi : decode 0x3109FF00#32 = .ok (.andi 8 9 0xFF00) := by decide
theorem test_decode_lui : decode 0x3C081234#32 = .ok (.lui 8 0x1234) := by decide
theorem test_decode_nor : decode 0x01095027#32 = .ok (.nor 8 9 10) := by decide
theorem test_decode_or : decode 0x01095025#32 = .ok (.or 8 9 10) := by decide
theorem test_decode_ori : decode 0x35098001#32 = .ok (.ori 8 9 0x8001) := by decide
theorem test_decode_xor : decode 0x01095026#32 = .ok (.xor 8 9 10) := by decide
theorem test_decode_xori : decode 0x3909FFFF#32 = .ok (.xori 8 9 0xFFFF) := by decide
theorem test_decode_beq : decode 0x11090003#32 = .ok (.beq 8 9 3) := by decide
theorem test_decode_bgez : decode 0x0501FFFE#32 = .ok (.bgez 8 0xFFFE) := by decide
theorem test_decode_bgezal : decode 0x05110004#32 = .ok (.bgezal 8 4) := by decide
theorem test_decode_bgtz : decode 0x1D000001#32 = .ok (.bgtz 8 1) := by decide
theorem test_decode_blez : decode 0x19000001#32 = .ok (.blez 8 1) := by decide
theorem test_decode_bltzal : decode 0x05100004#32 = .ok (.bltzal 8 4) := by decide
theorem test_decode_bltz : decode 0x0500FFFF#32 = .ok (.bltz 8 0xFFFF) := by decide
theorem test_decode_bne : decode 0x1509FFFC#32 = .ok (.bne 8 9 0xFFFC) := by decide
theorem test_decode_div : decode 0x0109001A#32 = .ok (.div 8 9) := by decide
theorem test_decode_divu : decode 0x0109001B#32 = .ok (.divu 8 9) := by decide
theorem test_decode_mfhi : decode 0x00005010#32 = .ok (.mfhi 10) := by decide
theorem test_decode_mflo : decode 0x00005012#32 = .ok (.mflo 10) := by decide
theorem test_decode_mthi : decode 0x01000011#32 = .ok (.mthi 8) := by decide
theorem test_decode_mtlo : decode 0x01000013#32 = .ok (.mtlo 8) := by decide
theorem test_decode_mult : decode 0x01090018#32 = .ok (.mult 8 9) := by decide
theorem test_decode_multu : decode 0x01090019#32 = .ok (.multu 8 9) := by decide
theorem test_decode_j : decode 0x08100008#32 = .ok (.j 0x100008) := by decide
theorem test_decode_jal : decode 0x0C100008#32 = .ok (.jal 0x100008) := by decide
theorem test_decode_jlr : decode 0x0320F809#32 = .ok (.jlr 25 31) := by decide
theorem test_decode_jr : decode 0x03E00008#32 = .ok (.jr 31) := by decide
theorem test_decode_lb : decode 0x81090003#32 = .ok (.lb 8 9 3) := by decide
theorem test_decode_lbu : decode 0x91090003#32 = .ok (.lbu 8 9 3) := by decide
theorem test_decode_lh : decode 0x8509FFFE#32 = .ok (.lh 8 9 0xFFFE) := by decide
theorem test_decode_lhu : decode 0x95090002#32 = .ok (.lhu 8 9 2) := by decide
theorem test_decode_lw : decode 0x8D090004#32 = .ok (.lw 8 9 4) := by decide
theorem test_decode_lwl : decode 0x89090001#32 = .ok (.lwl 8 9 1) := by decide
theorem test_decode_lwr : decode 0x99090001#32 = .ok (.lwr 8 9 1) := by decide
theorem test_decode_sb : decode 0xA1090001#32 = .ok (.sb 8 9 1) := by decide
theorem test_decode_sh : decode 0xA5090002#32 = .ok (.sh 8 9 2) := by decide
theorem test_decode_sw : decode 0xAD09FFFC#32 = .ok (.sw 8 9 0xFFFC) := by decide
theorem test_decode_swl : decode 0xA9090001#32 = .ok (.swl 8 9 1) := by decide
theorem test_decode_swr : decode 0xB9090001#32 = .ok (.swr 8 9 1) := by decide
theorem test_decode_sll : decode 0x00095100#32 = .ok (.sll 9 10 4) := by decide
theorem test_decode_sllv : decode 0x01095004#32 = .ok (.sllv 8 9 10) := by decide
theorem test_decode_sra : decode 0x00095103#32 = .ok (.sra 9 10 4) := by decide
theorem test_decode_srav : decode 0x01095007#32 = .ok (.srav 8 9 10) := by decide
theorem test_decode_srl : decode 0x00095102#32 = .ok (.srl 9 10 4) := by decide
theorem test_decode_srlv : decode 0x01095006#32 = .ok (.srlv 8 9 10) := by decide
theorem test_decode_slt : decode 0x0109502A#32 = .ok (.slt 8 9 10) := by decide
theorem test_decode_slti : decode 0x2909FFFF#32 = .ok (.slti 8 9 0xFFFF) := by decide
theorem test_decode_sltui : decode 0x2D09FFFF#32 = .ok (.sltui 8 9 0xFFFF) := by decide
theorem test_decode_sltu : decode 0x0109502B#32 = .ok (.sltu 8 9 10) := by decide
theorem test_decode_syscall : decode 0x0000000C#32 = .ok (.syscall 0) := by decide
/-! ### Words that are no instruction (R61) -/

theorem test_decode_break_refused : (decode 0x0000000D#32).toBool = false := by decide
theorem test_decode_add_sa_nonzero_refused : (decode 0x01095060#32).toBool = false := by decide
theorem test_decode_mult_rd_nonzero_refused : (decode 0x01090818#32).toBool = false := by decide
theorem test_decode_lui_rs_nonzero_refused : (decode 0x3C281234#32).toBool = false := by decide
theorem test_decode_blez_rt_nonzero_refused : (decode 0x19010001#32).toBool = false := by decide
theorem test_decode_sll_rs_nonzero_refused : (decode 0x01095100#32).toBool = false := by decide
theorem test_decode_regimm_rt_2_refused : (decode 0x05020001#32).toBool = false := by decide
theorem test_decode_op_010000_refused : (decode 0x40000000#32).toBool = false := by decide
theorem test_decode_syscall_code_kept : decode 0x03FFFFCC#32 = .ok (.syscall 0xFFFFF) := by decide

/-- R33: the word stands by `ENDIAN` in memory. -/
theorem test_word_bytes_little : wordBytes .little 0x24080005#32 = [0x05, 0x00, 0x08, 0x24] := by decide
theorem test_word_bytes_big : wordBytes .big 0x24080005#32 = [0x24, 0x08, 0x00, 0x05] := by decide
theorem test_decodeBytes_little : decodeBytes .little [0x20, 0x50, 0x09, 0x01] = .ok (.add 8 9 10) := by decide
theorem test_decodeBytes_big : decodeBytes .big [0x01, 0x09, 0x50, 0x20] = .ok (.add 8 9 10) := by decide
theorem test_decodeBytes_truncated : decodeBytes .big [0x01, 0x09, 0x50] = .error (.truncated 3) := by decide
theorem test_decodeTableWord : decodeTableWord 32 0x01095020 = some (.add 8 9 10) := by decide

/-! ### The field an assembler emits for a label (R57, R58): Examples of R92 and R110 -/

theorem test_branchOffset_back : branchOffset 0x00400010#32 0x0040000C#32 = 0xFFFE#16 := by decide
theorem test_branchReaches_far : branchReaches 0x00400010#32 0x00420014#32 = false := by decide
theorem test_jumpField : jumpField 0x00400020#32 = 0x0100008#26 := by decide

/-! ### One step -/

/-- Reset with these registers, `pc`, byte order and bytes. -/
def small (e : Endian) (pc : Word) (regs : List (RegIdx × Word)) (bytes : List (Word × Byte)) : State :=
  regs.foldl (fun s c => s.setReg c.1 c.2)
    { State.reset with pc := pc, mem := Memory.writeCells [] bytes, params := ⟨e, [⟨0, 2 ^ 32⟩], []⟩ }

/-- The word `v` at 0x10010000. -/
def wordAt (e : Endian) (v : Word) : List (Word × Byte) := storedCells e 0x10010000 4 v

/-- What is seen of the state after one step that runs the word. -/
def after {α : Type} (see : State → α) (w : Nat) (s : State) : Option α :=
  match step (s.withFetchWord 32 w) with
  | .next t => some (see t)
  | .fault _ => none
  | .refused _ => none

theorem test_add :
    after (fun s => s.reg 10) 0x01095020
      (small .little 0x00400010 [(8, 0x5), (9, 0xFFFFFFFE)] []) = some 0x00000003#32 := by decide
theorem test_add_traps :
    after (fun s => (s.trap, s.reg 10)) 0x01095020
      (small .little 0x00400010 [(8, 0x7FFFFFFF), (9, 0x1), (10, 0x7)] []) =
      some (some ⟨.overflow, 0x00400010, none, none⟩, 7) := by decide
theorem test_addi :
    after (fun s => s.reg 9) 0x2109FFFF (small .little 0x00400010 [] []) = some 0xFFFFFFFF#32 := by decide
theorem test_addi_traps :
    after (fun s => (s.trap, s.pc)) 0x21090001
      (small .little 0x00400010 [(8, 0x7FFFFFFF)] []) =
      some (some ⟨.overflow, 0x00400010, none, none⟩, 0x00400010) := by decide
theorem test_addiu :
    after (fun s => s.reg 9) 0x25098000 (small .little 0x00400010 [(8, 0x8000)] []) = some 0x00000000#32 := by decide
theorem test_addu :
    after (fun s => s.reg 10) 0x01095021
      (small .little 0x00400010 [(8, 0xFFFFFFFF), (9, 0x2)] []) = some 0x00000001#32 := by decide
theorem test_sub :
    after (fun s => s.reg 10) 0x01095022
      (small .little 0x00400010 [(8, 0x3), (9, 0x5)] []) = some 0xFFFFFFFE#32 := by decide
theorem test_sub_traps :
    after State.trap 0x01095022
      (small .little 0x00400010 [(9, 0x80000000)] []) = some (some ⟨.overflow, 0x00400010, none, none⟩) := by decide
theorem test_subu :
    after (fun s => s.reg 10) 0x01095023 (small .little 0x00400010 [(9, 0x1)] []) = some 0xFFFFFFFF#32 := by decide
theorem test_and :
    after (fun s => s.reg 10) 0x01095024
      (small .little 0x00400010 [(8, 0xFF00FF00), (9, 0xFF00FF0)] []) = some 0x0F000F00#32 := by decide
theorem test_andi :
    after (fun s => s.reg 9) 0x3109FF00
      (small .little 0x00400010 [(8, 0x12345678)] []) = some 0x00005600#32 := by decide
theorem test_lui :
    after (fun s => s.reg 8) 0x3C081234 (small .little 0x00400010 [] []) = some 0x12340000#32 := by decide
theorem test_nor :
    after (fun s => s.reg 10) 0x01095027
      (small .little 0x00400010 [(8, 0xFF00FF00), (9, 0xFF00FF0)] []) = some 0x000F000F#32 := by decide
theorem test_or :
    after (fun s => s.reg 10) 0x01095025
      (small .little 0x00400010 [(8, 0xFF00FF00), (9, 0xFF00FF0)] []) = some 0xFFF0FFF0#32 := by decide
theorem test_ori :
    after (fun s => s.reg 9) 0x35098001
      (small .little 0x00400010 [(8, 0x12340000)] []) = some 0x12348001#32 := by decide
theorem test_xor :
    after (fun s => s.reg 10) 0x01095026
      (small .little 0x00400010 [(8, 0xFF00FF00), (9, 0xFF00FF0)] []) = some 0xF0F0F0F0#32 := by decide
theorem test_xori :
    after (fun s => s.reg 9) 0x3909FFFF
      (small .little 0x00400010 [(8, 0x12345678)] []) = some 0x1234A987#32 := by decide
theorem test_beq :
    after State.pc 0x11090003 (small .little 0x00400010 [(8, 0x4), (9, 0x4)] []) = some 0x00400020#32 := by decide
theorem test_beq_not_taken :
    after State.pc 0x11090003 (small .little 0x00400010 [(8, 0x4), (9, 0x5)] []) = some 0x00400014#32 := by decide
theorem test_bgez :
    after State.pc 0x0501FFFE (small .little 0x00400010 [] []) = some 0x0040000C#32 := by decide
theorem test_bgez_not_taken :
    after State.pc 0x0501FFFE (small .little 0x00400010 [(8, 0x80000000)] []) = some 0x00400014#32 := by decide
theorem test_bgezal :
    after (fun s => (s.reg 31, s.pc)) 0x05110004
      (small .little 0x00400010 [(8, 0x5)] []) = some (0x00400014, 0x00400024) := by decide
theorem test_bgezal_not_taken :
    after (fun s => (s.reg 31, s.pc)) 0x05110004
      (small .little 0x00400010 [(8, 0xFFFFFFFF), (31, 0x9)] []) = some (9, 0x00400014) := by decide
theorem test_bgtz :
    after State.pc 0x1D000001 (small .little 0x00400010 [(8, 0x1)] []) = some 0x00400018#32 := by decide
theorem test_bgtz_not_taken :
    after State.pc 0x1D000001 (small .little 0x00400010 [] []) = some 0x00400014#32 := by decide
theorem test_blez :
    after State.pc 0x19000001 (small .little 0x00400010 [] []) = some 0x00400018#32 := by decide
theorem test_blez_not_taken :
    after State.pc 0x19000001 (small .little 0x00400010 [(8, 0x1)] []) = some 0x00400014#32 := by decide
theorem test_bltzal :
    after (fun s => (s.reg 31, s.pc)) 0x05100004
      (small .little 0x00400010 [(8, 0xFFFFFFF9)] []) = some (0x00400014, 0x00400024) := by decide
theorem test_bltzal_not_taken :
    after (fun s => (s.reg 31, s.pc)) 0x05100004
      (small .little 0x00400010 [(31, 0x9)] []) = some (9, 0x00400014) := by decide
theorem test_bltz :
    after State.pc 0x0500FFFF (small .little 0x00400010 [(8, 0x80000000)] []) = some 0x00400010#32 := by decide
theorem test_bltz_not_taken :
    after State.pc 0x0500FFFF (small .little 0x00400010 [] []) = some 0x00400014#32 := by decide
theorem test_bne :
    after State.pc 0x1509FFFC (small .little 0x00400010 [(8, 0x1), (9, 0x2)] []) = some 0x00400004#32 := by decide
theorem test_bne_not_taken :
    after State.pc 0x1509FFFC (small .little 0x00400010 [(8, 0x1), (9, 0x1)] []) = some 0x00400014#32 := by decide
theorem test_div :
    after (fun s => (s.hi, s.lo)) 0x0109001A
      (small .little 0x00400010 [(8, 0xFFFFFFF9), (9, 0x2)] []) = some (0xFFFFFFFF, 0xFFFFFFFD) := by decide
theorem test_div_min_by_minus_one :
    after (fun s => (s.hi, s.lo)) 0x0109001A
      (small .little 0x00400010 [(8, 0x80000000), (9, 0xFFFFFFFF)] []) = some (0, 0x80000000) := by decide
theorem test_divu :
    after (fun s => (s.hi, s.lo)) 0x0109001B
      (small .little 0x00400010 [(8, 0xFFFFFFF9), (9, 0x2)] []) = some (1, 0x7FFFFFFC) := by decide
theorem test_divu_by_zero :
    after (fun s => (s.draws, s.pc)) 0x0109001B
      (small .little 0x00400010 [(8, 0x7)] []) = some (2, 0x00400014) := by decide
theorem test_mfhi :
    after (fun s => s.reg 10) 0x00005010
      { small .little 0x00400010 [] [] with hi := 1, lo := 0x78 } = some 0x00000001#32 := by decide
theorem test_mflo :
    after (fun s => s.reg 10) 0x00005012
      { small .little 0x00400010 [] [] with hi := 1, lo := 0x78 } = some 0x00000078#32 := by decide
theorem test_mthi :
    after (fun s => (s.hi, s.lo)) 0x01000011
      { small .little 0x00400010 [(8, 0xDEADBEEF)] [] with hi := 1, lo := 0x78 } =
      some (0xDEADBEEF, 0x78) := by decide
theorem test_mtlo :
    after (fun s => (s.hi, s.lo)) 0x01000013
      { small .little 0x00400010 [(8, 0x7)] [] with hi := 1, lo := 0x78 } = some (1, 7) := by decide
theorem test_mult :
    after (fun s => (s.hi, s.lo)) 0x01090018
      (small .little 0x00400010 [(8, 0xFFFFFFFE), (9, 0x3)] []) = some (0xFFFFFFFF, 0xFFFFFFFA) := by decide
theorem test_mult_min_min :
    after (fun s => (s.hi, s.lo)) 0x01090018
      (small .little 0x00400010 [(8, 0x80000000), (9, 0x80000000)] []) = some (0x40000000, 0) := by decide
theorem test_multu :
    after (fun s => (s.hi, s.lo)) 0x01090019
      (small .little 0x00400010 [(8, 0xFFFFFFFE), (9, 0x3)] []) = some (2, 0xFFFFFFFA) := by decide
theorem test_j :
    after State.pc 0x08100008 (small .little 0x00400010 [] []) = some 0x00400020#32 := by decide
theorem test_j_last_word_of_region :
    after State.pc 0x08100008 (small .little 0x0FFFFFFC [] []) = some 0x10400020#32 := by decide
theorem test_jal :
    after (fun s => (s.reg 31, s.pc)) 0x0C100008
      (small .little 0x00400004 [] []) = some (0x00400008, 0x00400020) := by decide
theorem test_jlr :
    after (fun s => (s.reg 31, s.pc)) 0x0320F809
      (small .little 0x00400010 [(25, 0x400100)] []) = some (0x00400014, 0x00400100) := by decide
theorem test_jr :
    after State.pc 0x03E00008 (small .little 0x00400010 [(31, 0x400008)] []) = some 0x00400008#32 := by decide
theorem test_lb :
    after (fun s => s.reg 9) 0x81090003
      (small .little 0x00400010 [(8, 0x10010000)] [(0x10010003, 0x81)]) = some 0xFFFFFF81#32 := by decide
theorem test_lbu :
    after (fun s => s.reg 9) 0x91090003
      (small .little 0x00400010 [(8, 0x10010000)] [(0x10010003, 0x81)]) = some 0x00000081#32 := by decide
theorem test_lh_little :
    after (fun s => s.reg 9) 0x8509FFFE
      (small .little 0x00400010 [(8, 0x10010004)] [(0x10010002, 0xFE), (0x10010003, 0xFF)]) =
      some 0xFFFFFFFE#32 := by decide
theorem test_lh_big :
    after (fun s => s.reg 9) 0x8509FFFE
      (small .big 0x00400010 [(8, 0x10010004)] [(0x10010002, 0xFE), (0x10010003, 0xFF)]) =
      some 0xFFFFFEFF#32 := by decide
theorem test_lhu_little :
    after (fun s => s.reg 9) 0x95090002
      (small .little 0x00400010 [(8, 0x10010000)] [(0x10010002, 0xFE), (0x10010003, 0xFF)]) =
      some 0x0000FFFE#32 := by decide
theorem test_lhu_odd_traps :
    after (fun s => (s.trap, s.reg 9)) 0x95090002
      (small .little 0x00400010 [(8, 0x10010001), (9, 0x7)] [(0x10010002, 0xFE), (0x10010003, 0xFF)]) =
      some (some ⟨.addressError .load, 0x00400010, some 0x10010003, none⟩, 7) := by decide
theorem test_lw :
    after (fun s => s.reg 9) 0x8D090004
      (small .big 0x00400010 [(8, 0x10010000)] (storedCells .big 0x10010004 4 0x55667788)) =
      some 0x55667788#32 := by decide
theorem test_lw_unaligned_traps :
    after State.trap 0x8D090004
      (small .little 0x00400010 [(8, 0x10010002)] []) =
      some (some ⟨.addressError .load, 0x00400010, some 0x10010006, none⟩) := by decide
theorem test_lwl_little :
    after (fun s => s.reg 9) 0x89090001
      (small .little 0x00400010 [(8, 0x10010000), (9, 0xAABBCCDD)] (wordAt .little 0x11223344)) =
      some 0x3344CCDD#32 := by decide
theorem test_lwl_big :
    after (fun s => s.reg 9) 0x89090001
      (small .big 0x00400010 [(8, 0x10010000), (9, 0xAABBCCDD)] (wordAt .big 0x11223344)) =
      some 0x223344DD#32 := by decide
theorem test_lwr_little :
    after (fun s => s.reg 9) 0x99090001
      (small .little 0x00400010 [(8, 0x10010000), (9, 0xAABBCCDD)] (wordAt .little 0x11223344)) =
      some 0xAA112233#32 := by decide
theorem test_lwr_big :
    after (fun s => s.reg 9) 0x99090001
      (small .big 0x00400010 [(8, 0x10010000), (9, 0xAABBCCDD)] (wordAt .big 0x11223344)) =
      some 0xAABB1122#32 := by decide
theorem test_sb_little :
    after (fun s => s.memWord 0x10010000) 0xA1090001
      (small .little 0x00400010 [(8, 0x10010000), (9, 0xAABBCCDD)] (wordAt .little 0x11223344)) =
      some 0x1122DD44#32 := by decide
theorem test_sb_big :
    after (fun s => s.memWord 0x10010000) 0xA1090001
      (small .big 0x00400010 [(8, 0x10010000), (9, 0xAABBCCDD)] (wordAt .big 0x11223344)) =
      some 0x11DD3344#32 := by decide
theorem test_sh_little :
    after (fun s => s.memWord 0x10010000) 0xA5090002
      (small .little 0x00400010 [(8, 0x10010000), (9, 0xAABBCCDD)] (wordAt .little 0x11223344)) =
      some 0xCCDD3344#32 := by decide
theorem test_sh_big :
    after (fun s => s.memWord 0x10010000) 0xA5090002
      (small .big 0x00400010 [(8, 0x10010000), (9, 0xAABBCCDD)] (wordAt .big 0x11223344)) =
      some 0x1122CCDD#32 := by decide
theorem test_swl_little :
    after (fun s => s.memWord 0x10010000) 0xA9090001
      (small .little 0x00400010 [(8, 0x10010000), (9, 0xAABBCCDD)] (wordAt .little 0x11223344)) =
      some 0x1122AABB#32 := by decide
theorem test_swl_big :
    after (fun s => s.memWord 0x10010000) 0xA9090001
      (small .big 0x00400010 [(8, 0x10010000), (9, 0xAABBCCDD)] (wordAt .big 0x11223344)) =
      some 0x11AABBCC#32 := by decide
theorem test_swr_little :
    after (fun s => s.memWord 0x10010000) 0xB9090001
      (small .little 0x00400010 [(8, 0x10010000), (9, 0xAABBCCDD)] (wordAt .little 0x11223344)) =
      some 0xBBCCDD44#32 := by decide
theorem test_swr_big :
    after (fun s => s.memWord 0x10010000) 0xB9090001
      (small .big 0x00400010 [(8, 0x10010000), (9, 0xAABBCCDD)] (wordAt .big 0x11223344)) =
      some 0xCCDD3344#32 := by decide
theorem test_sw_little :
    after (fun s => (s.memByte 0x10010004, s.memByte 0x10010007)) 0xAD09FFFC
      (small .little 0x00400010 [(8, 0x10010008), (9, 0xAABBCCDD)] []) = some (0xDD, 0xAA) := by decide
theorem test_sw_big :
    after (fun s => (s.memByte 0x10010004, s.memByte 0x10010007)) 0xAD09FFFC
      (small .big 0x00400010 [(8, 0x10010008), (9, 0xAABBCCDD)] []) = some (0xAA, 0xDD) := by decide
theorem test_sll :
    after (fun s => s.reg 10) 0x00095100
      (small .little 0x00400010 [(9, 0xF000000F)] []) = some 0x000000F0#32 := by decide
theorem test_sllv :
    after (fun s => s.reg 10) 0x01095004
      (small .little 0x00400010 [(9, 0x1), (8, 0x24)] []) = some 0x00000010#32 := by decide
theorem test_sra :
    after (fun s => s.reg 10) 0x00095103
      (small .little 0x00400010 [(9, 0xF000000F)] []) = some 0xFF000000#32 := by decide
theorem test_srav :
    after (fun s => s.reg 10) 0x01095007
      (small .little 0x00400010 [(9, 0x80000000), (8, 0x1F)] []) = some 0xFFFFFFFF#32 := by decide
theorem test_srav_count_32 :
    after (fun s => s.reg 10) 0x01095007
      (small .little 0x00400010 [(9, 0x80000000), (8, 0x20)] []) = some 0x80000000#32 := by decide
theorem test_srl :
    after (fun s => s.reg 10) 0x00095102
      (small .little 0x00400010 [(9, 0xF000000F)] []) = some 0x0F000000#32 := by decide
theorem test_srlv :
    after (fun s => s.reg 10) 0x01095006
      (small .little 0x00400010 [(9, 0x80000000), (8, 0x1F)] []) = some 0x00000001#32 := by decide
theorem test_slt :
    after (fun s => s.reg 10) 0x0109502A
      (small .little 0x00400010 [(8, 0xFFFFFFFF), (9, 0x1)] []) = some 0x00000001#32 := by decide
theorem test_slti :
    after (fun s => s.reg 9) 0x2909FFFF
      (small .little 0x00400010 [(8, 0xFFFFFFFE)] []) = some 0x00000001#32 := by decide
theorem test_sltui :
    after (fun s => s.reg 9) 0x2D09FFFF (small .little 0x00400010 [(8, 0x5)] []) = some 0x00000001#32 := by decide
theorem test_sltu :
    after (fun s => s.reg 10) 0x0109502B
      (small .little 0x00400010 [(8, 0xFFFFFFFF), (9, 0x1), (10, 0x7)] []) = some 0x00000000#32 := by decide
theorem test_syscall :
    after (fun s => (s.trap, s.pc)) 0x0000000C
      (small .little 0x00400014 [] []) = some (some ⟨.systemCall, 0x00400014, none, none⟩, 0x00400014) := by decide

/-! ### For each obligation with hypotheses, a state and operands that meet them -/

/-- 16 bytes of `TEXT` at 0x00400000 and data memory at 0x10010000 and at the end of the address space; `x[8]` is `v8`,
`x[9]` is `v9`. -/
def world (e : Endian) (v8 v9 : Word) : State :=
  { (small e 0x00400000 [(8, v8), (9, v9)] (wordAt e 0x11223344)) with
    params := ⟨e, [⟨0x00400000, 16⟩, ⟨0x10010000, 16⟩, ⟨0xFFFFFFF0, 16⟩], [⟨0x00400000, 16⟩]⟩ }

/-- `world` about to run the word `w`. -/
def running (w : Nat) : State := (world .little 0x10010000 7).withFetchWord 32 w

theorem meets_EncodeOfDecode : decode 0x01095020#32 = .ok (.add 8 9 10) := by decide

theorem meets_OpcodeTableDecides :
    Instr.opcodeRow (.sll 0 0 0) ∈ opcodeRows ∧
      0x00000000#32 &&& (Instr.opcodeRow (.sll 0 0 0)).mask = (Instr.opcodeRow (.sll 0 0 0)).pattern := by decide

theorem meets_UndefinedWordRaises :
    (running 0xFFFFFFFF).trap = none ∧ Fetchable (running 0xFFFFFFFF) ∧
      ∀ row ∈ opcodeRows, (running 0xFFFFFFFF).memWord (running 0xFFFFFFFF).pc &&& row.mask ≠ row.pattern := by
  unfold Fetchable; decide

theorem meets_StepRunsDecodedInstruction :
    (running 0x01095020).trap = none ∧ Fetchable (running 0x01095020) ∧
      decode ((running 0x01095020).memWord (running 0x01095020).pc) = .ok (.add 8 9 10) := by
  unfold Fetchable; decide

theorem meets_FetchChecksInOrder_misaligned :
    State.trap { running 0 with pc := 0x00400001 } = none ∧ (0x00400001#32).toNat % 4 ≠ 0 ∧
      State.trap { running 0 with pc := 0xFFFFFFFF } = none ∧ (0xFFFFFFFF#32).toNat % 4 ≠ 0 := by decide

/-- Outside `MEM_VALID`, and inside it but outside `TEXT`. -/
theorem meets_FetchChecksInOrder_outside :
    State.trap { running 0 with pc := 0x00400010 } = none ∧ (0x00400010#32).toNat % 4 = 0 ∧
      ¬ Fetchable { running 0 with pc := 0x00400010 } ∧
      State.trap { running 0 with pc := 0x10010000 } = none ∧ (0x10010000#32).toNat % 4 = 0 ∧
      ¬ Fetchable { running 0 with pc := 0x10010000 } := by
  unfold Fetchable; decide

theorem meets_NoStepAfterTrap : (takeException .overflow (running 0)).trap ≠ none := by decide

theorem meets_ExceptionsArePrecise :
    (∃ t r, step (running 0xFFFFFFFF) = .next t ∧ t.trap = some r ∧ r.word = some 0xFFFFFFFF) ∧
      (∃ t r, step (running 0x8D090001) = .next t ∧ t.trap = some r ∧ r.badaddr = some 0x10010001) ∧
      ∃ t r, step (running 0x0000000C) = .next t ∧ t.trap = some r ∧ r.kind = .systemCall :=
  ⟨⟨_, _, rfl, rfl, rfl⟩, ⟨_, _, rfl, rfl, rfl⟩, ⟨_, _, rfl, rfl, rfl⟩⟩

theorem meets_ExceptionsArePrecise_fetch_store :
    (∃ t r, step { running 0 with pc := 0x00400003 } = .next t ∧ t.trap = some r ∧ r.badaddr = some 0x00400003) ∧
      ∃ t r, step (running 0xA5090003) = .next t ∧ t.trap = some r ∧ r.badaddr = some 0x10010003 :=
  ⟨⟨_, _, rfl, rfl, rfl⟩, ⟨_, _, rfl, rfl, rfl⟩⟩

theorem meets_InstructionsRaiseOnlyListed :
    (running 0).trap = none ∧
      ∃ t r, exec (.lh 8 9 1) (running 0) = .next t ∧ t.trap = some r ∧ r.kind = .addressError .load :=
  ⟨rfl, _, _, rfl, rfl, rfl⟩

theorem meets_RegistersWrittenAsListed :
    ∃ t, exec (.add 8 9 10) (running 0) = .next t ∧ Instr.destination (.add 8 9 10) ≠ some 11 ∧ t.reg 11 = 0 :=
  ⟨_, rfl, by decide, rfl⟩

theorem meets_HiLoReachedByEightOnly :
    Instr.reach (.lw 8 9 0) ≠ .hiLo ∧ ∃ t, exec (.lw 8 9 0) (running 0) = .next t ∧ t.reg 9 = 0x11223344 :=
  ⟨by decide, _, rfl, rfl⟩

theorem meets_MemoryReachedByLoadsAndStoresOnly :
    Instr.reach (.mult 8 9) ≠ .store ∧ Instr.reach (.mult 8 9) ≠ .load ∧
      ∃ t, exec (.mult 8 9) (running 0) = .next t ∧ t.lo = 0x70070000 :=
  ⟨by decide, by decide, _, rfl, rfl⟩

theorem meets_DrawsOnlyForZeroDivisor :
    (∃ t, exec (.div 8 0) (running 0) = .next t ∧ t.draws ≠ (running 0).draws) ∧
      ∃ t, exec (.divu 8 0) (running 0) = .next t ∧ t.draws ≠ (running 0).draws :=
  ⟨⟨_, rfl, by decide⟩, ⟨_, rfl, by decide⟩⟩

theorem meets_PcStaysAligned :
    (running 0).pc.toNat % 4 = 0 ∧ (∀ rs, Instr.bne 8 9 0x8000 ≠ .jr rs) ∧
      (∀ rs rd, Instr.bne 8 9 0x8000 ≠ .jlr rs rd) ∧
      ∃ t, exec (.bne 8 9 0x8000) (running 0) = .next t ∧ t.pc = 0x003E0004 :=
  ⟨rfl, fun _ => nofun, fun _ _ => nofun, _, rfl, rfl⟩

theorem meets_ParametersFixedForRun : ∃ t, core.run 2 (running 0) = .next t ∧ t.pc = 0x00400008 :=
  ⟨_, rfl, rfl⟩

theorem meets_TextNeverChanges :
    (∃ t, core.run 1 (running 0xAD090000) = .next t ∧ t.memWord 0x10010000 = 7) ∧
      ∀ i < 4, (running 0xAD090000).inText (0x00400000#32 + BitVec.ofNat 32 i) = true :=
  ⟨⟨_, rfl, rfl⟩, by decide⟩

theorem meets_StepKeepsInvariant :
    (running 0xAD090000).inv = true ∧ ∃ t, step (running 0xAD090000) = .next t ∧ t.memWord 0x10010000 = 7 :=
  ⟨by decide, _, rfl, rfl⟩

/-- A launch that sets `x[8]`, HI, LO and two bytes, and leaves `x[9]` unset. -/
def someLaunch : Launch where
  params := ⟨.big, [⟨0x10010000, 2⟩], []⟩
  entry := 0x10010000
  initMem := [(0x10010000, 1), (0x10010001, 0)]
  initRegs := [(8, 5)]
  initHi := some 2
  initLo := some 3

theorem meets_LaunchState :
    (8 : RegIdx) ≠ 0#5 ∧ someLaunch.initRegs.lookup 8 = some 5 ∧ (9 : RegIdx) ≠ 0#5 ∧
      someLaunch.initRegs.lookup 9 = none ∧ someLaunch.initHi = some 2 ∧ someLaunch.initLo = some 3 ∧
      (someLaunch.initMem.map (·.1)).Nodup ∧ (0x10010001, 0) ∈ someLaunch.initMem := by decide

theorem meets_LaunchState_unset_hi_lo :
    ({ someLaunch with initHi := none, initLo := none } : Launch).initHi = none ∧
      ({ someLaunch with initHi := none, initLo := none } : Launch).initLo = none := by decide

theorem meets_PlacedWordRunsNext : decode 0x0000000C#32 = .ok (.syscall 0) := by decide

theorem meets_RegisterZeroHardwired :
    (31 : RegIdx) ≠ 0#5 ∧
      ¬ FitsSigned (((world .little 0x7FFFFFFF 1).reg 8).toInt + ((world .little 0x7FFFFFFF 1).reg 9).toInt) := by
  unfold FitsSigned; decide

theorem meets_ReadsJoinBytesByEndian :
    (world .little 0 0).params.endian = .little ∧ (world .big 0 0).params.endian = .big := by decide

theorem meets_WritePlacesBytesAndReadsBack : ∀ n ∈ [1, 2, 4], n = 1 ∨ n = 2 ∨ n = 4 := by decide

theorem meets_WritePlacesBytesAndReadsBack_others :
    (∀ i < 4, 0xFFFFFFFD#32 ≠ 0xFFFFFFFE#32 + BitVec.ofNat 32 i) ∧
      ∀ i < 4, 0x00000002#32 ≠ 0xFFFFFFFE#32 + BitVec.ofNat 32 i := by decide

theorem meets_CanonicalMemoryIsExtensional :
    ∃ m k : Memory, m = [(0, 1), (0xFFFFFFFF, 2)] ∧
      k = Memory.writeCells [] [(0xFFFFFFFF, 2), (3, 9), (0, 1), (3, 0)] ∧
      m.wf = true ∧ k.wf = true ∧ ∀ a, m.read a = k.read a :=
  ⟨_, _, rfl, rfl, by decide, by decide, fun _ => rfl⟩

theorem meets_SignificanceOfAddressedByte :
    (world .little 0 0).params.endian = .little ∧ (world .big 0 0).params.endian = .big := by decide

/-- The largest and smallest sum and difference that fit, of `add`, `sub` and `addi`. -/
theorem meets_TrappingArithmeticResults_fits :
    FitsSigned (((world .little 0x7FFFFFFF 0).reg 8).toInt + ((world .little 0x7FFFFFFF 0).reg 9).toInt) ∧
      FitsSigned (((world .little 0x80000000 0).reg 8).toInt - ((world .little 0x80000000 0).reg 9).toInt) ∧
      FitsSigned (((world .little 0x80000001 0).reg 8).toInt + (0xFFFF#16).toInt) := by
  unfold FitsSigned; decide

theorem meets_TrappingArithmeticResults_overflows :
    ¬ FitsSigned (((world .little 0x7FFFFFFF 1).reg 8).toInt + ((world .little 0x7FFFFFFF 1).reg 9).toInt) ∧
      ¬ FitsSigned (((world .little 0x80000000 1).reg 8).toInt - ((world .little 0x80000000 1).reg 9).toInt) ∧
      ¬ FitsSigned (((world .little 0x80000000 0).reg 8).toInt + (0xFFFF#16).toInt) := by
  unfold FitsSigned; decide

theorem meets_OverflowBySignBits :
    addOverflows 0x7FFFFFFF#32 0#32 = false ∧ addOverflows 0x80000000#32 0#32 = false ∧
      subOverflows 0x80000000#32 0#32 = false ∧ subOverflows 0xFFFFFFFF#32 0x80000000#32 = false := by decide

/-- The states of the clauses in which `add`, `addi` and `sub` do not raise, at the ends of the range. -/
theorem meets_OverflowBySignBits_no_raise :
    (¬ ∃ t, exec (.add 8 9 10) (world .little 0x7FFFFFFF 0) = .next t ∧
        Trapped (world .little 0x7FFFFFFF 0) t ⟨.overflow, 0x00400000, none, none⟩) ∧
      (¬ ∃ t, exec (.addi 8 9 0xFFFF) (world .little 0x80000001 0) = .next t ∧
        Trapped (world .little 0x80000001 0) t ⟨.overflow, 0x00400000, none, none⟩) ∧
      ¬ ∃ t, exec (.sub 8 9 10) (world .little 0x80000000 0) = .next t ∧
        Trapped (world .little 0x80000000 0) t ⟨.overflow, 0x00400000, none, none⟩ := by
  refine ⟨?_, ?_, ?_⟩ <;> (rintro ⟨_, h, ht⟩; cases h; exact absurd ht.trap (by decide))

theorem meets_BranchAndLinkResults :
    ((world .little 0 0).reg 8).msb = false ∧ ((world .little 0x7FFFFFFF 0).reg 8).msb = false ∧
      ((world .little 0x80000000 0).reg 8).msb = true ∧ ((world .little 0xFFFFFFFF 0).reg 8).msb = true := by decide

theorem meets_DivideResults :
    (world .little 7 0).reg 9 = 0#32 ∧ (world .little 7 1).reg 9 ≠ 0#32 ∧
      (world .little 0x80000000 0xFFFFFFFF).reg 9 ≠ 0#32 ∧
      (world .little 0x80000000 0xFFFFFFFF).reg 8 = 0x80000000#32 ∧
      (world .little 0x80000000 0xFFFFFFFF).reg 9 = 0xFFFFFFFF#32 := by decide

theorem meets_DivideUnsignedResults :
    (world .little 7 0).reg 9 = 0#32 ∧ (world .little 7 0xFFFFFFFF).reg 9 ≠ 0#32 := by decide

theorem meets_JumpRegisterResults_misaligned :
    (world .little 1 0).trap = none ∧ ((world .little 1 0).reg 8).toNat % 4 ≠ 0 ∧
      (world .little 0xFFFFFFFF 0).trap = none ∧ ((world .little 0xFFFFFFFF 0).reg 8).toNat % 4 ≠ 0 := by decide

theorem meets_JumpRegisterResults_outside :
    (world .little 0x00400010 0).trap = none ∧ ((world .little 0x00400010 0).reg 8).toNat % 4 = 0 ∧
      ∃ t, exec (.jr 8) (world .little 0x00400010 0) = .next t ∧ ¬ Fetchable t := by
  unfold Fetchable
  exact ⟨rfl, rfl, _, rfl, by decide⟩

theorem meets_JumpAndLinkRegisterResults_distinct :
    (31 : RegIdx) ≠ 8 ∧ (world .little 1 0).trap = none ∧ ((world .little 1 0).reg 8).toNat % 4 ≠ 0 ∧
      (world .little 0x00400010 0).trap = none ∧ ((world .little 0x00400010 0).reg 8).toNat % 4 = 0 ∧
      ∃ t, exec (.jlr 8 31) (world .little 0x00400010 0) = .next t ∧ ¬ Fetchable t := by
  unfold Fetchable
  exact ⟨by decide, rfl, by decide, rfl, rfl, _, rfl, by decide⟩

theorem meets_JumpAndLinkRegisterResults_same : (8 : RegIdx) = 8 ∧ (8 : RegIdx) ≠ 0#5 := by decide

/-- The last byte of the address space, and the byte after the data memory. -/
theorem meets_LoadByteResults :
    (world .little 0xFFFFFFFF 0).validAddr (effectiveAddress (world .little 0xFFFFFFFF 0) 8 0) = true ∧
      (world .little 0x1001000F 0).validAddr (effectiveAddress (world .little 0x1001000F 0) 8 1) = false := by decide

/-- Odd, and even at the two ends of the data memory, inside and outside. -/
theorem meets_LoadHalfResults :
    (effectiveAddress (world .big 0x10010001 0) 8 0).toNat % 2 = 1 ∧
      (effectiveAddress (world .big 0xFFFFFFFE 0) 8 0).toNat % 2 = 0 ∧
      BytesValid (world .big 0xFFFFFFFE 0) (effectiveAddress (world .big 0xFFFFFFFE 0) 8 0) 2 ∧
      (effectiveAddress (world .big 0x10010010 0) 8 0).toNat % 2 = 0 ∧
      ¬ BytesValid (world .big 0x10010010 0) (effectiveAddress (world .big 0x10010010 0) 8 0) 2 := by
  unfold BytesValid; decide

theorem meets_LoadWordResults :
    (effectiveAddress (world .little 1 0) 8 0).toNat % 4 ≠ 0 ∧
      (effectiveAddress (world .little 2 0) 8 0).toNat % 4 ≠ 0 ∧
      (effectiveAddress (world .little 3 0) 8 0).toNat % 4 ≠ 0 ∧
      (effectiveAddress (world .little 0xFFFFFFFC 0) 8 0).toNat % 4 = 0 ∧
      BytesValid (world .little 0xFFFFFFFC 0) (effectiveAddress (world .little 0xFFFFFFFC 0) 8 0) 4 ∧
      (effectiveAddress (world .little 0x10010010 0) 8 0).toNat % 4 = 0 ∧
      ¬ BytesValid (world .little 0x10010010 0) (effectiveAddress (world .little 0x10010010 0) 8 0) 4 := by
  unfold BytesValid; decide

/-- One byte (`k = 0`) and four bytes (`k = 3`) of the last word, and of the word after the data memory. -/
theorem meets_LoadWordLeftResults :
    BytesValid (world .little 0xFFFFFFFC 0) (leftStart .little 0xFFFFFFFC) (significance .little 0xFFFFFFFC + 1) ∧
      BytesValid (world .big 0xFFFFFFFC 0) (leftStart .big 0xFFFFFFFC) (significance .big 0xFFFFFFFC + 1) ∧
      ¬ BytesValid (world .big 0x10010010 0) (leftStart .big 0x10010010) (significance .big 0x10010010 + 1) ∧
      effectiveAddress (world .big 0x10010010 0) 8 0 = 0x10010010 := by
  unfold BytesValid; decide

theorem meets_LoadWordRightResults :
    BytesValid (world .little 0xFFFFFFFF 0) (rightStart .little 0xFFFFFFFF) (4 - significance .little 0xFFFFFFFF) ∧
      BytesValid (world .big 0xFFFFFFFF 0) (rightStart .big 0xFFFFFFFF) (4 - significance .big 0xFFFFFFFF) ∧
      ¬ BytesValid (world .little 0x10010010 0) (rightStart .little 0x10010010)
        (4 - significance .little 0x10010010) ∧
      effectiveAddress (world .little 0x10010010 0) 8 0 = 0x10010010 := by
  unfold BytesValid; decide

/-- `A` = 0x10010001 in both byte orders, and `A` = 0x10010000, a multiple of 4. -/
theorem meets_UnalignedLoadPair :
    (8 : RegIdx) ≠ 9 ∧ (9 : RegIdx) ≠ 0#5 ∧ BytesValid (world .little 0x10010001 0) 0x10010001 4 ∧
      effectiveAddress (world .little 0x10010001 0) 8 3 = 0x10010001#32 + 3#32 ∧
      effectiveAddress (world .little 0x10010001 0) 8 0 = 0x10010001#32 ∧
      BytesValid (world .big 0x10010001 0) 0x10010001 4 ∧
      effectiveAddress (world .big 0x10010001 0) 8 0 = 0x10010001#32 ∧
      effectiveAddress (world .big 0x10010001 0) 8 3 = 0x10010001#32 + 3#32 ∧
      BytesValid (world .little 0x10010000 0) 0x10010000 4 := by
  unfold BytesValid; decide

theorem meets_StoreByteResults :
    BytesWritable (world .little 0xFFFFFFFF 0) (effectiveAddress (world .little 0xFFFFFFFF 0) 8 0) 1 ∧
      ¬ BytesWritable (world .little 0x00400000 0) (effectiveAddress (world .little 0x00400000 0) 8 0) 1 ∧
      ¬ BytesWritable (world .little 0x10010010 0) (effectiveAddress (world .little 0x10010010 0) 8 0) 1 := by
  unfold BytesWritable; decide

theorem meets_StoreHalfResults :
    (effectiveAddress (world .big 0x10010001 0) 8 0).toNat % 2 = 1 ∧
      (effectiveAddress (world .big 0xFFFFFFFE 0) 8 0).toNat % 2 = 0 ∧
      BytesWritable (world .big 0xFFFFFFFE 0) (effectiveAddress (world .big 0xFFFFFFFE 0) 8 0) 2 ∧
      (effectiveAddress (world .big 0x00400000 0) 8 0).toNat % 2 = 0 ∧
      ¬ BytesWritable (world .big 0x00400000 0) (effectiveAddress (world .big 0x00400000 0) 8 0) 2 := by
  unfold BytesWritable; decide

theorem meets_StoreWordResults :
    (effectiveAddress (world .little 1 0) 8 0).toNat % 4 ≠ 0 ∧
      (effectiveAddress (world .little 2 0) 8 0).toNat % 4 ≠ 0 ∧
      (effectiveAddress (world .little 3 0) 8 0).toNat % 4 ≠ 0 ∧
      (effectiveAddress (world .little 0xFFFFFFFC 0) 8 0).toNat % 4 = 0 ∧
      BytesWritable (world .little 0xFFFFFFFC 0) (effectiveAddress (world .little 0xFFFFFFFC 0) 8 0) 4 ∧
      (effectiveAddress (world .little 0x00400000 0) 8 0).toNat % 4 = 0 ∧
      ¬ BytesWritable (world .little 0x00400000 0) (effectiveAddress (world .little 0x00400000 0) 8 0) 4 := by
  unfold BytesWritable; decide

theorem meets_StoreWordLeftResults :
    BytesWritable (world .little 0xFFFFFFFC 0) (leftStart .little 0xFFFFFFFC) (significance .little 0xFFFFFFFC + 1) ∧
      BytesWritable (world .big 0xFFFFFFFC 0) (leftStart .big 0xFFFFFFFC) (significance .big 0xFFFFFFFC + 1) ∧
      ¬ BytesWritable (world .big 0x00400000 0) (leftStart .big 0x00400000) (significance .big 0x00400000 + 1) ∧
      effectiveAddress (world .big 0x00400000 0) 8 0 = 0x00400000 := by
  unfold BytesWritable; decide

theorem meets_StoreWordRightResults :
    BytesWritable (world .little 0xFFFFFFFF 0) (rightStart .little 0xFFFFFFFF) (4 - significance .little 0xFFFFFFFF) ∧
      BytesWritable (world .big 0xFFFFFFFF 0) (rightStart .big 0xFFFFFFFF) (4 - significance .big 0xFFFFFFFF) ∧
      ¬ BytesWritable (world .little 0x00400000 0) (rightStart .little 0x00400000)
        (4 - significance .little 0x00400000) ∧
      effectiveAddress (world .little 0x00400000 0) 8 0 = 0x00400000 := by
  unfold BytesWritable; decide

theorem meets_UnalignedStorePair :
    BytesWritable (world .little 0x10010001 0) 0x10010001 4 ∧
      effectiveAddress (world .little 0x10010001 0) 8 3 = 0x10010001#32 + 3#32 ∧
      effectiveAddress (world .little 0x10010001 0) 8 0 = 0x10010001#32 ∧
      BytesWritable (world .big 0x10010001 0) 0x10010001 4 ∧
      effectiveAddress (world .big 0x10010001 0) 8 0 = 0x10010001#32 ∧
      effectiveAddress (world .big 0x10010001 0) 8 3 = 0x10010001#32 + 3#32 ∧
      BytesWritable (world .little 0x10010000 0) 0x10010000 4 := by
  unfold BytesWritable; decide

theorem meets_NarrowLoadsAfterStoreWord :
    (effectiveAddress (world .big 0xFFFFFFFC 7) 8 0).toNat % 4 = 0 ∧
      BytesWritable (world .big 0xFFFFFFFC 7) (effectiveAddress (world .big 0xFFFFFFFC 7) 8 0) 4 ∧
      (10 : RegIdx) ≠ 0#5 ∧ (0#16).toNat < 4 ∧ (3#16).toNat < 4 ∧ ((2 : Half) = 0 ∨ (2 : Half) = 2) := by
  unfold BytesWritable; decide

theorem meets_ZeroWordChangesOnlyPc :
    (running 0).trap = none ∧ Fetchable (running 0) ∧ (running 0).memWord (running 0).pc = 0#32 := by
  unfold Fetchable; decide

end Sys2Proof.Tests
end

/-! SUPPORT. What an instruction and a step can do to the state, said once (spec/10_state.md R15), and the induction over
a run. Invariants are case splits over `Effect`. -/

namespace Sys2Proof.Machine

/-- The ways in which instruction `i` can complete from `s`, each with the next state and what the spec's tables say of
an instruction that completes so. -/
inductive Effect (i : Instr) (s : State) : State → Prop where
  /-- `x[r] <- v`, a load included (R13). -/
  | wroteReg (r : RegIdx) (v : Word) (hr : i.destination = some r) : Effect i s (s.setReg r v).advance
  /-- HI and LO are written (R18). -/
  | wroteHiLo (hi lo : Word) (hreach : i.reach = .hiLo) : Effect i s { s with hi := hi, lo := lo }.advance
  /-- HI and LO take two free values (U1). -/
  | drewHiLo (rs rt : RegIdx) (hdiv : i = .div rs rt ∨ i = .divu rs rt) (hzero : s.reg rt = 0#32) :
      Effect i s { s with
        lo := Config.draw s.draws, hi := Config.draw (s.draws + 1), draws := s.draws + 2 }.advance
  /-- A branch that is not taken (R90). -/
  | fellThrough : Effect i s s.advance
  /-- A taken branch, or a jump. -/
  | jumped (target : Word) : Effect i s (s.jumpTo target)
  /-- A taken branch, or a jump, that writes the return address. -/
  | linked (r : RegIdx) (target : Word) (hr : i.destination = some r) :
      Effect i s ((s.setReg r (s.pc + 4#32)).jumpTo target)
  /-- A store, which is performed only on bytes of `MEM_VALID` outside `TEXT` (R39, R45). -/
  | stored (cells : List (Word × Byte)) (hstore : i.reach = .store)
      (hcells : ∀ a ∈ cells.map (·.1), s.validAddr a = true ∧ s.inText a = false) :
      Effect i s { s with mem := s.mem.writeCells cells }.advance
  /-- The exception of R174's table. -/
  | raised (e : Exception) (he : i.canRaise = some (e.record s.pc).kind) : Effect i s (takeException e s)

/-! ### The effect of each shared operation -/

section sharedOperations
variable {i : Instr} {s t : State}

theorem writeReg_effect {r : RegIdx} {v : Word} (hr : i.destination = some r) (h : writeReg r v s = .next t) :
    Effect i s t :=
  writeReg_next h ▸ .wroteReg r v hr

theorem writeHiLo_effect {hi lo : Word} (hreach : i.reach = .hiLo) (h : writeHiLo hi lo s = .next t) :
    Effect i s t :=
  writeHiLo_next h ▸ .wroteHiLo hi lo hreach

theorem drawHiLo_effect {rs rt : RegIdx} (hdiv : i = .div rs rt ∨ i = .divu rs rt) (hzero : s.reg rt = 0#32)
    (h : drawHiLo s = .next t) : Effect i s t :=
  drawHiLo_next h ▸ .drewHiLo rs rt hdiv hzero

theorem raise_effect {e : Exception} (he : i.canRaise = some (e.record s.pc).kind) (h : raise e s = .next t) :
    Effect i s t :=
  raise_next h ▸ .raised e he

theorem loadReg_effect {r : RegIdx} {addrs : List Word} {v : Word} (hr : i.destination = some r)
    (h : loadReg r addrs v s = .next t) : Effect i s t :=
  (loadReg_next h).2 ▸ .wroteReg r v hr

theorem storeBytes_effect {cells : List (Word × Byte)} (hstore : i.reach = .store)
    (h : storeBytes cells s = .next t) : Effect i s t := by
  obtain ⟨hcells, rfl⟩ := storeBytes_next h
  exact .stored cells hstore hcells

/-- An access with an alignment test has the effect of the access or raises. -/
theorem aligned_effect {aligned : Bool} {access : Result} {e : Exception}
    (he : i.canRaise = some (e.record s.pc).kind) (haccess : access = .next t → Effect i s t)
    (h : (if aligned then access else raise e s) = .next t) : Effect i s t := by
  split at h
  · exact haccess h
  · exact raise_effect he h

theorem writeRegTrapping_effect {overflows : Bool} {r : RegIdx} {v : Word} (hr : i.destination = some r)
    (he : i.canRaise = some .overflow)
    (h : writeRegTrapping overflows r v s = .next t) : Effect i s t := by
  unfold writeRegTrapping at h
  split at h
  · exact raise_effect (e := .overflow) he h
  · exact writeReg_effect hr h

theorem branchIf_effect {taken : Bool} {imm : Half} (h : branchIf taken imm s = .next t) : Effect i s t := by
  cases h
  split
  · exact .jumped _
  · exact .fellThrough

theorem branchAndLinkIf_effect {taken : Bool} {imm : Half} (hr : i.destination = some .ra)
    (h : branchAndLinkIf taken imm s = .next t) : Effect i s t := by
  cases h
  split
  · exact .linked _ _ hr
  · exact .fellThrough

end sharedOperations

/-! ### The effect of the instructions that choose between two operations or are refused -/

theorem execDiv_effect {rs rt : RegIdx} {s t : State} (h : execDiv rs rt s = .next t) :
    Effect (.div rs rt) s t := by
  simp only [execDiv] at h
  split at h
  next hzero => exact drawHiLo_effect (.inl rfl) (BitVec.eq_of_toInt_eq hzero) h
  next => exact writeHiLo_effect rfl h

theorem execDivu_effect {rs rt : RegIdx} {s t : State} (h : execDivu rs rt s = .next t) :
    Effect (.divu rs rt) s t := by
  simp only [execDivu] at h
  split at h
  next hzero => exact drawHiLo_effect (.inr rfl) (BitVec.eq_of_toNat_eq hzero) h
  next => exact writeHiLo_effect rfl h

theorem execJlr_effect {rs rd : RegIdx} {s t : State} (h : execJlr rs rd s = .next t) :
    Effect (.jlr rs rd) s t := by
  unfold execJlr at h
  split at h
  · cases h; exact .linked _ _ rfl
  · cases h

/-! ### Every instruction, every step, every run -/

/-- Everything an instruction that completes can have done. -/
theorem exec_effect {i : Instr} {s t : State} (h : exec i s = .next t) : Effect i s t := by
  cases i with
  | addiu | addu | subu | and | andi | lui | nor | or | ori | xor | xori | mfhi | mflo
  | sll | sllv | sra | srav | srl | srlv | slt | slti | sltui | sltu => exact writeReg_effect rfl h
  | add | addi | sub => exact writeRegTrapping_effect rfl rfl h
  | beq | bgez | bgtz | blez | bltz | bne => exact branchIf_effect h
  | bgezal | bltzal => exact branchAndLinkIf_effect rfl h
  | mthi | mtlo | mult | multu => exact writeHiLo_effect rfl h
  | div => exact execDiv_effect h
  | divu => exact execDivu_effect h
  | j | jr => cases h; exact .jumped _
  | jal => cases h; exact .linked _ _ rfl
  | jlr => exact execJlr_effect h
  | lb | lbu | lwl | lwr => exact loadReg_effect rfl h
  | lh | lhu | lw => exact aligned_effect rfl (loadReg_effect rfl) h
  | sb | swl | swr => exact storeBytes_effect rfl h
  | sh | sw => exact aligned_effect rfl (storeBytes_effect rfl) h
  | syscall => exact raise_effect rfl h

/-- A step that completes had no trap before it, and executed the fetched instruction or raised the exception of the
fetch or the decode (R15). -/
theorem step_next {s t : State} (h : step s = .next t) :
    s.trap = none ∧ ((∃ i, fetchInstr s = .instr i ∧ exec i s = .next t) ∨
      ∃ e, fetchInstr s = .exception e ∧ t = takeException e s) := by
  unfold step at h
  split at h
  · cases h
  · next htrap =>
    split at h
    · next i hfetch => exact ⟨htrap, .inl ⟨i, hfetch, h⟩⟩
    · next e hfetch => exact ⟨htrap, .inr ⟨e, hfetch, raise_next h⟩⟩
    · cases h

/-- A run that completes one step and more took the step and went on from there. -/
theorem run_succ_next {n : Nat} {s t : State} (h : core.run (n + 1) s = .next t) :
    ∃ u, step s = .next u ∧ core.run n u = .next t := by
  simp only [Host.Core.run] at h
  split at h
  · next u hstep => exact ⟨u, hstep, h⟩
  · cases h
  · cases h

/-- What every step keeps, every run keeps. -/
theorem run_keeps {P : State → Prop} (hstep : ∀ s t, P s → step s = .next t → P t) :
    ∀ (n : Nat) (s t : State), P s → core.run n s = .next t → P t
  | 0, _, _, hs, h => by cases h; exact hs
  | n + 1, s, t, hs, h => by
    obtain ⟨u, hu, hrun⟩ := run_succ_next h
    exact run_keeps hstep n u t (hstep s u hs hu) hrun

/-! ### The parameters of a run -/

theorem Effect.params {i : Instr} {s t : State} (h : Effect i s t) : t.params = s.params := by
  cases h with
  | wroteReg r v _ => exact setReg_params s r v
  | linked r target _ => exact setReg_params s r _
  | wroteHiLo | drewHiLo | fellThrough | jumped | stored | raised => rfl

theorem step_params {s t : State} (h : step s = .next t) : t.params = s.params := by
  obtain ⟨_, ⟨i, _, hexec⟩ | ⟨e, _, rfl⟩⟩ := step_next h
  · exact (exec_effect hexec).params
  · exact takeException_params e s

/-- Settles O16, by induction over the run: no step changes the parameters. -/
theorem parametersFixedForRun : Obligations.ParametersFixedForRun := fun n s t h =>
  run_keeps (P := fun u => u.params = s.params) (fun _ _ hu hstep => (step_params hstep).trans hu) n s t rfl h

end Sys2Proof.Machine

/-! SUPPORT. The step, by what the fetch answers (spec/10_state.md R15), and the obligations about the step alone. -/

namespace Sys2Proof.Machine

/-! ### What the fetch looks at -/

theorem wordAligned_iff {a : Word} : wordAligned a = true ↔ a.toNat % 4 = 0 := by simp [wordAligned]

theorem mem_addressRange {a addr : Word} {n : Nat} :
    a ∈ addressRange addr n ↔ ∃ i < n, a = addr + BitVec.ofNat 32 i := by
  simp [addressRange, eq_comm]

/-- A word is fetchable when neither check of the fetch stops it. -/
theorem fetchable_iff {s : State} :
    Fetchable s ↔ s.pc.toNat % 4 = 0 ∧ refuseFetch (addressRange s.pc 4) s = none := by
  rw [refuseFetch_eq_none]
  refine and_congr_right fun _ => ⟨fun h a ha => ?_, fun h i hi => h _ (mem_addressRange.mpr ⟨i, hi, rfl⟩)⟩
  obtain ⟨i, hi, rfl⟩ := mem_addressRange.mp ha
  exact h i hi

theorem fetchInstr_misaligned {s : State} (h : s.pc.toNat % 4 ≠ 0) :
    fetchInstr s = .exception (.addressError .fetch s.pc) :=
  if_neg (mt wordAligned_iff.mp h)

theorem fetchInstr_refused {s : State} {r : Refusal} (haligned : s.pc.toNat % 4 = 0)
    (hr : refuseFetch (addressRange s.pc 4) s = some r) : fetchInstr s = .refusal r := by
  simp [fetchInstr, wordAligned_iff.mpr haligned, hr]

theorem fetchInstr_decoded {s : State} {i : Instr} (hfetch : Fetchable s) (hi : decode (s.memWord s.pc) = .ok i) :
    fetchInstr s = .instr i := by
  obtain ⟨haligned, hnone⟩ := fetchable_iff.mp hfetch
  simp [fetchInstr, wordAligned_iff.mpr haligned, hnone, hi]

/-! ### The step -/

section step
variable {s : State}

theorem step_trapped (h : s.trap ≠ none) : step s = .fault .runEnded := by
  obtain ⟨r, hr⟩ := Option.ne_none_iff_exists'.mp h
  simp [step, hr]

theorem step_instr {i : Instr} (htrap : s.trap = none) (h : fetchInstr s = .instr i) : step s = exec i s := by
  simp [step, htrap, h]

theorem step_exception {e : Exception} (htrap : s.trap = none) (h : fetchInstr s = .exception e) :
    step s = .next (takeException e s) := by
  simp [step, htrap, h, raise]

theorem step_refusal {r : Refusal} (htrap : s.trap = none) (h : fetchInstr s = .refusal r) :
    step s = .refused r := by
  simp [step, htrap, h]

end step

/-- R176: an exception makes its record and changes nothing else. -/
theorem takeException_trapped (e : Exception) (s : State) : Trapped s (takeException e s) (e.record s.pc) where
  trap := takeException_trap e s
  mem := takeException_memByte e s
  params := takeException_params e s
  draws := takeException_draws e s
  reg := takeException_reg e s
  pc := takeException_pc e s
  hi := takeException_hi e s
  lo := takeException_lo e s

/-- Settles O6: a fetchable word that decodes is fetched as its instruction. -/
theorem stepRunsDecodedInstruction : Obligations.StepRunsDecodedInstruction :=
  fun _ _ htrap hfetch hi => step_instr htrap (fetchInstr_decoded hfetch hi)

/-- Settles O7: a misaligned `pc` raises; an aligned one that is not fetchable is refused, for a byte of the word. -/
theorem fetchChecksInOrder : Obligations.FetchChecksInOrder := by
  intro s htrap
  constructor
  · intro hmis
    exact ⟨_, step_exception htrap (fetchInstr_misaligned hmis), takeException_trapped _ s⟩
  · intro haligned hnot
    have hsome : refuseFetch (addressRange s.pc 4) s ≠ none := fun h => hnot (fetchable_iff.mpr ⟨haligned, h⟩)
    obtain ⟨r, hr⟩ := Option.ne_none_iff_exists'.mp hsome
    have hstep := step_refusal htrap (fetchInstr_refused haligned hr)
    obtain ⟨a, ha, hwhy⟩ := refuseFetch_eq_some hr
    obtain ⟨i, hi, rfl⟩ := mem_addressRange.mp ha
    obtain ⟨hbyte, rfl⟩ | ⟨hbyte, rfl⟩ := hwhy
    · exact ⟨i, hi, .inl ⟨hbyte, hstep⟩⟩
    · exact ⟨i, hi, .inr ⟨hbyte, hstep⟩⟩

/-! ### No instruction is a fault (log 10) -/

section neverFaults
variable {s : State} {f : Fault}

theorem ite_ne_fault {c : Prop} [Decidable c] {a b : Result} (ha : a ≠ .fault f) (hb : b ≠ .fault f) :
    (if c then a else b) ≠ .fault f := by
  split
  · exact ha
  · exact hb

theorem loadReg_ne_fault {r : RegIdx} {addrs : List Word} {v : Word} : loadReg r addrs v s ≠ .fault f := by
  unfold loadReg
  split
  · nofun
  · nofun

theorem storeBytes_ne_fault {cells : List (Word × Byte)} : storeBytes cells s ≠ .fault f := by
  unfold storeBytes
  split
  · nofun
  · nofun

theorem exec_ne_fault (i : Instr) : exec i s ≠ .fault f := by
  cases i with
  | addiu | addu | subu | and | andi | lui | nor | or | ori | xor | xori | mfhi | mflo
  | sll | sllv | sra | srav | srl | srlv | slt | slti | sltui | sltu => nofun
  | beq | bgez | bgtz | blez | bltz | bne | bgezal | bltzal | j | jr | jal => nofun
  | mthi | mtlo | mult | multu | syscall => nofun
  | add | addi | sub | div | divu | jlr => exact ite_ne_fault nofun nofun
  | lb | lbu | lwl | lwr => exact loadReg_ne_fault
  | lh | lhu | lw => exact ite_ne_fault loadReg_ne_fault nofun
  | sb | swl | swr => exact storeBytes_ne_fault
  | sh | sw => exact ite_ne_fault storeBytes_ne_fault nofun

/-- Without a trap record a step completes or is refused. -/
theorem step_ne_fault (htrap : s.trap = none) : step s ≠ .fault f := by
  cases hfetch : fetchInstr s with
  | instr i => rw [step_instr htrap hfetch]; exact exec_ne_fault i
  | exception e => rw [step_exception htrap hfetch]; nofun
  | refusal r => rw [step_refusal htrap hfetch]; nofun

end neverFaults

/-- A run from a trap record takes no step. -/
theorem safeRun_of_trapped {s : State} (h : s.trap ≠ none) : SafeRun s
  | 0, _ => nofun
  | n + 1, r => by
    have hstep : core.step s = .fault .runEnded := step_trapped h
    simp [Host.Core.run, hstep]

/-- Settles O8: `step` tests the trap record first, and no instruction answers a fault. -/
theorem noStepAfterTrap : Obligations.NoStepAfterTrap := fun _ =>
  ⟨⟨step_trapped, fun hfault htrap => step_ne_fault htrap hfault⟩, safeRun_of_trapped⟩

end Sys2Proof.Machine

/-! SUPPORT. Register 0 and the state after reset (spec/10_state.md R11, R24). -/

namespace Sys2Proof.Machine

/-- The model's overflow test is R70's: the exact integer is not the reading of a 32-bit string. -/
theorem outOfRange_iff (n : Int) : outOfRange n = true ↔ ¬ FitsSigned n := by
  simp only [outOfRange, FitsSigned, Bool.or_eq_true, decide_eq_true_eq]
  omega

theorem execAdd_overflow {s : State} {rs rt rd : RegIdx}
    (h : ¬ FitsSigned ((s.reg rs).toInt + (s.reg rt).toInt)) : exec (.add rs rt rd) s = raise .overflow s :=
  if_pos ((outOfRange_iff _).mpr h)

/-- Settles O23: the register laws of `setReg`, and the overflow test of `add` that no destination turns off. -/
theorem registerZeroHardwired : Obligations.RegisterZeroHardwired := by
  refine ⟨reg_zero, setReg_zero, fun s r q v hr => ?_, fun s rs rt h => ?_⟩
  · rw [setReg_reg]
    exact if_congr ⟨And.left, fun hq => ⟨hq, hq ▸ hr⟩⟩ rfl rfl
  · exact ⟨_, execAdd_overflow h, takeException_trapped .overflow s⟩

/-! ### Reset -/

/-- Settles O19: reset's memory is canonical, register 0 is stored as zero and there is no trap record. -/
theorem resetHasInvariant : Obligations.ResetHasInvariant := by
  have hmem : State.reset.mem.wf = true := wf_reset
  have hzero : (State.reset.regs[0] == 0#32) = true := rfl
  have htrap : State.reset.trap.all (trapConsistent State.reset.pc) = true := rfl
  simp only [Obligations.ResetHasInvariant, State.inv, hmem, hzero, htrap, Bool.and_self]

/-- The launch that reset is sets each of the 32 registers to 0, so that none is left free. -/
theorem launchReset_regValue : ∀ r : RegIdx, Launch.reset.regValue r = 0#32 := by decide

theorem reset_eq_launch : State.reset = State.launch Launch.reset := by
  have hregs : Vector.replicate 32 0#32 =
      Vector.ofFn fun i : Fin 32 => Launch.reset.regValue (BitVec.ofNat 5 i.val) := by
    ext i hi : 1
    simp [launchReset_regValue]
  exact congrArg (fun regs => { State.reset with regs := regs }) hregs

theorem reset_reg (r : RegIdx) : State.reset.reg r = 0#32 := by
  simp [State.reg, State.reset]

/-- Reset's one region of `MEM_VALID` is the whole address space. -/
theorem reset_validAddr (a : Word) : State.reset.validAddr a = true := by
  simpa [State.validAddr, covered, Region.covers, State.reset] using a.isLt

/-- Settles O21: the launch, the registers, memory and the two address sets of reset, one after another. -/
theorem resetIsALaunch : Obligations.ResetIsALaunch :=
  ⟨reset_eq_launch, rfl, reset_reg, fun _ => rfl, reset_validAddr, fun _ => rfl⟩

end Sys2Proof.Machine

/-! SUPPORT. What every completed instruction leaves of the registers, of `pc`, of HI and LO and of memory
(spec/10_state.md R13, R16, R18, R22). -/

namespace Sys2Proof.Machine

/-! ### Registers -/

/-- R13: the destination of the table is the only register an effect writes. -/
theorem Effect.reg_of_ne {i : Instr} {s t : State} {r : RegIdx} (h : Effect i s t) (hr : i.destination ≠ some r) :
    t.reg r = s.reg r := by
  have other {q : RegIdx} (hq : i.destination = some q) (v : Word) : (s.setReg q v).reg r = s.reg r := by
    rw [setReg_reg, if_neg]
    rintro ⟨rfl, -⟩
    exact hr hq
  cases h with
  | wroteReg q v hq => exact other hq v
  | linked q target hq => exact other hq _
  | wroteHiLo | drewHiLo | fellThrough | jumped | stored | raised => rfl

/-- Settles O11, from the effects. -/
theorem registersWrittenAsListed : Obligations.RegistersWrittenAsListed := fun _ _ _ _ h hr =>
  (exec_effect h).reg_of_ne hr

/-! ### The program counter -/

/-- The values `pc` can have after instruction `i` completed from `s`. -/
inductive NextPc (i : Instr) (s : State) : Word → Prop where
  /-- An instruction that raised (R176). -/
  | stayed : NextPc i s s.pc
  /-- R15. -/
  | advanced : NextPc i s (s.pc + 4#32)
  /-- A taken branch (R90). -/
  | branched (imm : Half) : NextPc i s (branchTarget s.pc imm)
  /-- `j` or `jal` (R110, R111). -/
  | jumped (target : BitVec 26) : NextPc i s (jumpTarget s.pc target)
  /-- `jr` or `jlr` (R112, R113). -/
  | toReg (rs : RegIdx) (hi : i = .jr rs ∨ ∃ rd, i = .jlr rs rd) : NextPc i s (s.reg rs)

section nextPc
variable {i : Instr} {s t : State}

theorem writeReg_nextPc {r : RegIdx} {v : Word} (h : writeReg r v s = .next t) : NextPc i s t.pc := by
  rw [writeReg_next h, advance_pc, setReg_pc]
  exact .advanced

theorem writeHiLo_nextPc {hi lo : Word} (h : writeHiLo hi lo s = .next t) : NextPc i s t.pc :=
  writeHiLo_next h ▸ .advanced

theorem drawHiLo_nextPc (h : drawHiLo s = .next t) : NextPc i s t.pc :=
  drawHiLo_next h ▸ .advanced

theorem raise_nextPc {e : Exception} (h : raise e s = .next t) : NextPc i s t.pc :=
  raise_next h ▸ .stayed

theorem loadReg_nextPc {r : RegIdx} {addrs : List Word} {v : Word} (h : loadReg r addrs v s = .next t) :
    NextPc i s t.pc :=
  writeReg_nextPc ((loadReg_next h).2 ▸ rfl : writeReg r v s = .next t)

theorem storeBytes_nextPc {cells : List (Word × Byte)} (h : storeBytes cells s = .next t) : NextPc i s t.pc :=
  (storeBytes_next h).2 ▸ .advanced

theorem ite_nextPc {c : Prop} [Decidable c] {a b : Result} (ha : a = .next t → NextPc i s t.pc)
    (hb : b = .next t → NextPc i s t.pc) (h : (if c then a else b) = .next t) : NextPc i s t.pc := by
  split at h
  · exact ha h
  · exact hb h

theorem branchIf_nextPc {taken : Bool} {imm : Half} (h : branchIf taken imm s = .next t) : NextPc i s t.pc := by
  cases h
  split
  · exact .branched imm
  · exact .advanced

theorem branchAndLinkIf_nextPc {taken : Bool} {imm : Half} (h : branchAndLinkIf taken imm s = .next t) :
    NextPc i s t.pc := by
  cases h
  split
  · exact .branched imm
  · exact .advanced

theorem execJlr_nextPc {rs rd : RegIdx} (h : execJlr rs rd s = .next t) : NextPc (.jlr rs rd) s t.pc := by
  unfold execJlr at h
  split at h
  · cases h; exact .toReg rs (.inr ⟨rd, rfl⟩)
  · cases h

end nextPc

theorem exec_nextPc {i : Instr} {s t : State} (h : exec i s = .next t) : NextPc i s t.pc := by
  cases i with
  | addiu | addu | subu | and | andi | lui | nor | or | ori | xor | xori | mfhi | mflo
  | sll | sllv | sra | srav | srl | srlv | slt | slti | sltui | sltu => exact writeReg_nextPc h
  | add | addi | sub => exact ite_nextPc raise_nextPc writeReg_nextPc h
  | beq | bgez | bgtz | blez | bltz | bne => exact branchIf_nextPc h
  | bgezal | bltzal => exact branchAndLinkIf_nextPc h
  | mthi | mtlo | mult | multu => exact writeHiLo_nextPc h
  | div | divu => exact ite_nextPc drawHiLo_nextPc writeHiLo_nextPc h
  | j | jal => cases h; exact .jumped _
  | jr => cases h; exact .toReg _ (.inl rfl)
  | jlr => exact execJlr_nextPc h
  | lb | lbu | lwl | lwr => exact loadReg_nextPc h
  | lh | lhu | lw => exact ite_nextPc loadReg_nextPc raise_nextPc h
  | sb | swl | swr => exact storeBytes_nextPc h
  | sh | sw => exact ite_nextPc storeBytes_nextPc raise_nextPc h
  | syscall => exact raise_nextPc h

theorem add_four_aligned {a : Word} (h : a.toNat % 4 = 0) : (a + 4#32).toNat % 4 = 0 := by
  rw [BitVec.toNat_add, BitVec.toNat_ofNat]
  omega

/-- R90: the offset of a branch counts words. -/
theorem branchTarget_aligned {pc : Word} (imm : Half) (h : pc.toNat % 4 = 0) :
    (branchTarget pc imm).toNat % 4 = 0 := by
  have hnext := add_four_aligned h
  rw [branchTarget, BitVec.toNat_add, BitVec.toNat_shiftLeft, Nat.shiftLeft_eq]
  omega

/-- R110: the two low bits of a jump target are zero. -/
theorem jumpTarget_aligned (pc : Word) (target : BitVec 26) : (jumpTarget pc target).toNat % 4 = 0 := by
  rw [jumpTarget, BitVec.toNat_append, Nat.shiftLeft_eq]
  simp

/-- Settles O15: every next `pc` but a register's value is aligned. -/
theorem pcStaysAligned : Obligations.PcStaysAligned := by
  intro i s t h haligned hjr hjlr
  have hpc := exec_nextPc h
  generalize t.pc = pc at hpc ⊢
  cases hpc with
  | stayed => exact haligned
  | advanced => exact add_four_aligned haligned
  | branched imm => exact branchTarget_aligned imm haligned
  | jumped target => exact jumpTarget_aligned s.pc target
  | toReg rs hi =>
    obtain rfl | ⟨rd, rfl⟩ := hi
    · exact absurd rfl (hjr rs)
    · exact absurd rfl (hjlr rs rd)

end Sys2Proof.Machine

/-! SUPPORT. What an instruction does not read: an instruction commutes with a change of a part of the state that it
does not look at (spec/10_state.md R18, R22). -/

namespace Sys2Proof.Machine

/-! ### Changes of a part of the state -/

/-- The answer with the next state changed. -/
def mapNext (f : State → State) : Result → Result
  | .next s => .next (f s)
  | .fault r => .fault r
  | .refused r => .refused r

/-- The state with other HI and LO. -/
def withHiLo (hi lo : Word) (s : State) : State := { s with hi := hi, lo := lo }

/-- The state with another memory. -/
def withMem (m : Memory) (s : State) : State := { s with mem := m }

/-- The change `f` keeps what every instruction may read and commutes with the writes that are neither to HI and LO
nor to memory. -/
structure Invisible (f : State → State) : Prop where
  reg : ∀ s r, (f s).reg r = s.reg r
  pc : ∀ s, (f s).pc = s.pc
  setReg : ∀ s r v, (f s).setReg r v = f (s.setReg r v)
  jumpTo : ∀ s target, (f s).jumpTo target = f (s.jumpTo target)
  takeException : ∀ e s, takeException e (f s) = f (takeException e s)

theorem withHiLo_invisible (hi lo : Word) : Invisible (withHiLo hi lo) where
  reg _ _ := rfl
  pc _ := rfl
  setReg s r v := by
    unfold State.setReg
    split
    · rfl
    · rfl
  jumpTo _ _ := rfl
  takeException _ _ := rfl

theorem withMem_invisible (m : Memory) : Invisible (withMem m) where
  reg _ _ := rfl
  pc _ := rfl
  setReg s r v := by
    unfold State.setReg
    split
    · rfl
    · rfl
  jumpTo _ _ := rfl
  takeException _ _ := rfl

/-! ### The shared operations under a change they do not see -/

theorem ite_mapNext {f : State → State} {c : Prop} [Decidable c] {a b a' b' : Result} (ha : a' = mapNext f a)
    (hb : b' = mapNext f b) : (if c then a' else b') = mapNext f (if c then a else b) := by
  rw [ha, hb, apply_ite (mapNext f)]

section invisible
variable {f : State → State} {s : State}

theorem Invisible.advance (hf : Invisible f) : (f s).advance = f s.advance := by
  calc (f s).advance = (f s).jumpTo ((f s).pc + 4#32) := rfl
    _ = f (s.jumpTo (s.pc + 4#32)) := by rw [hf.pc, hf.jumpTo]
    _ = f s.advance := rfl

theorem Invisible.writeReg (hf : Invisible f) {r : RegIdx} {v w : Word} (hv : w = v) :
    writeReg r w (f s) = mapNext f (writeReg r v s) := by
  subst hv
  exact congrArg Host.Outcome.next ((congrArg State.advance (hf.setReg s r w)).trans hf.advance)

theorem Invisible.raise (hf : Invisible f) (e : Exception) : raise e (f s) = mapNext f (raise e s) :=
  congrArg Host.Outcome.next (hf.takeException e s)

theorem Invisible.writeRegTrapping (hf : Invisible f) {overflows overflows' : Bool} {r : RegIdx} {v w : Word}
    (ho : overflows' = overflows) (hv : w = v) :
    writeRegTrapping overflows' r w (f s) = mapNext f (writeRegTrapping overflows r v s) := by
  subst ho
  exact ite_mapNext (hf.raise _) (hf.writeReg hv)

theorem Invisible.transfer (hf : Invisible f) {target target' : Word} (ht : target' = target) :
    .next ((f s).jumpTo target') = mapNext f (.next (s.jumpTo target)) := by
  rw [ht, hf.jumpTo]
  rfl

theorem Invisible.link (hf : Invisible f) {r : RegIdx} {target target' : Word} (ht : target' = target) :
    .next (((f s).setReg r ((f s).pc + 4#32)).jumpTo target') =
      mapNext f (.next ((s.setReg r (s.pc + 4#32)).jumpTo target)) := by
  rw [hf.pc, hf.setReg]
  exact hf.transfer ht

theorem Invisible.branchIf (hf : Invisible f) {taken taken' : Bool} (ht : taken' = taken) (imm : Half) :
    branchIf taken' imm (f s) = mapNext f (branchIf taken imm s) := by
  subst ht
  cases taken'
  · exact congrArg Host.Outcome.next hf.advance
  · exact hf.transfer (by rw [hf.pc])

theorem Invisible.branchAndLinkIf (hf : Invisible f) {taken taken' : Bool} (ht : taken' = taken) (imm : Half) :
    branchAndLinkIf taken' imm (f s) = mapNext f (branchAndLinkIf taken imm s) := by
  subst ht
  cases taken'
  · exact congrArg Host.Outcome.next hf.advance
  · exact hf.link (by rw [hf.pc])

/-- An instruction that has nothing to do with HI and LO nor with memory does not see a change of them. -/
theorem Invisible.exec (hf : Invisible f) {i : Instr} (hi : i.reach = .neither) :
    exec i (f s) = mapNext f (exec i s) := by
  cases i with
  | addiu | addu | subu | and | andi | lui | nor | or | ori | xor | xori
  | sll | sllv | sra | srav | srl | srlv | slt | slti | sltui | sltu =>
    exact hf.writeReg (by simp only [hf.reg])
  | add | addi | sub => exact hf.writeRegTrapping (by simp only [hf.reg]) (by simp only [hf.reg])
  | beq | bgez | bgtz | blez | bltz | bne => exact hf.branchIf (by simp only [hf.reg]) _
  | bgezal | bltzal => exact hf.branchAndLinkIf (by simp only [hf.reg]) _
  | j => exact hf.transfer (by rw [hf.pc])
  | jal => exact hf.link (by rw [hf.pc])
  | jr => exact hf.transfer (hf.reg _ _)
  | jlr => exact ite_mapNext (hf.link (hf.reg _ _)) rfl
  | syscall => exact hf.raise _
  | div | divu | mfhi | mflo | mthi | mtlo | mult | multu | lb | lbu | lh | lhu | lw | lwl | lwr
  | sb | sh | sw | swl | swr => cases hi

end invisible

/-! ### HI and LO -/

section withHiLo
variable {hi lo : Word} {s : State}

theorem loadReg_withHiLo {r : RegIdx} {addrs : List Word} {v : Word} :
    loadReg r addrs v (withHiLo hi lo s) = mapNext (withHiLo hi lo) (loadReg r addrs v s) := by
  have hsame : refuseAccess .load addrs (withHiLo hi lo s) = refuseAccess .load addrs s := rfl
  unfold loadReg
  rw [hsame]
  split
  · rfl
  · exact (withHiLo_invisible hi lo).writeReg rfl

theorem storeBytes_withHiLo {cells : List (Word × Byte)} :
    storeBytes cells (withHiLo hi lo s) = mapNext (withHiLo hi lo) (storeBytes cells s) := by
  have hsame : refuseStore (cells.map (·.1)) (withHiLo hi lo s) = refuseStore (cells.map (·.1)) s := rfl
  unfold storeBytes
  rw [hsame]
  split
  · rfl
  · rfl

/-- R18: outside the eight, an instruction does not see HI and LO. -/
theorem exec_withHiLo {i : Instr} (hreach : i.reach ≠ .hiLo) :
    exec i (withHiLo hi lo s) = mapNext (withHiLo hi lo) (exec i s) := by
  have hf := withHiLo_invisible hi lo
  cases i with
  | lb | lbu | lwl | lwr => exact loadReg_withHiLo
  | lh | lhu | lw => exact ite_mapNext loadReg_withHiLo (hf.raise _)
  | sb | swl | swr => exact storeBytes_withHiLo
  | sh | sw => exact ite_mapNext storeBytes_withHiLo (hf.raise _)
  | div | divu | mfhi | mflo | mthi | mtlo | mult | multu => exact absurd rfl hreach
  | _ => exact hf.exec rfl

/-- R18: outside the eight, an effect leaves HI and LO. -/
theorem Effect.hiLo {i : Instr} {t : State} (h : Effect i s t) (hreach : i.reach ≠ .hiLo) :
    t.hi = s.hi ∧ t.lo = s.lo := by
  cases h with
  | wroteReg r v _ => exact ⟨setReg_hi s r v, setReg_lo s r v⟩
  | linked r target _ => exact ⟨setReg_hi s r _, setReg_lo s r _⟩
  | wroteHiLo _ _ h => exact absurd h hreach
  | drewHiLo _ _ hdiv _ => obtain rfl | rfl := hdiv <;> exact absurd rfl hreach
  | fellThrough | jumped | stored | raised => exact ⟨rfl, rfl⟩

end withHiLo

/-- Settles O12: the frame from the effects, the independence from the change of HI and LO that is not seen. -/
theorem hiLoReachedByEightOnly : Obligations.HiLoReachedByEightOnly := by
  intro i s t hi lo hreach h
  obtain ⟨hhi, hlo⟩ := (exec_effect h).hiLo hreach
  exact ⟨hhi, hlo, (exec_withHiLo hreach).trans (congrArg (mapNext (withHiLo hi lo)) h)⟩

/-! ### Memory -/

section withMem
variable {m : Memory} {s : State}

/-- R22: an instruction that is no load and no store does not see memory. -/
theorem exec_withMem {i : Instr} (hstore : i.reach ≠ .store) (hload : i.reach ≠ .load) :
    exec i (withMem m s) = mapNext (withMem m) (exec i s) := by
  have hf := withMem_invisible m
  cases i with
  | mfhi | mflo => exact hf.writeReg rfl
  | mthi | mtlo | mult | multu => rfl
  | div | divu => exact ite_mapNext rfl rfl
  | lb | lbu | lh | lhu | lw | lwl | lwr => exact absurd rfl hload
  | sb | sh | sw | swl | swr => exact absurd rfl hstore
  | _ => exact hf.exec rfl

/-- R22: the effect of an instruction that is no store leaves memory. -/
theorem Effect.mem {i : Instr} {t : State} (h : Effect i s t) (hstore : i.reach ≠ .store) : t.mem = s.mem := by
  cases h with
  | wroteReg r v _ => exact setReg_mem s r v
  | linked r target _ => exact setReg_mem s r _
  | stored _ h _ => exact absurd h hstore
  | wroteHiLo | drewHiLo | fellThrough | jumped | raised => rfl

end withMem

/-- Settles O13: the frame from the effects, the independence from the change of memory that is not seen. -/
theorem memoryReachedByLoadsAndStoresOnly : Obligations.MemoryReachedByLoadsAndStoresOnly := fun _ _ _ h =>
  ⟨(exec_effect h).mem,
    fun hstore hload m => (exec_withMem hstore hload).trans (congrArg (mapNext (withMem m)) h)⟩

end Sys2Proof.Machine

/-! SUPPORT. What every step keeps: the bytes of `TEXT` (spec/20_memory.md R45) and the invariant of every state of a
run (spec/20_memory.md R34, spec/10_state.md R11, spec/60_exceptions.md R176). -/

namespace Sys2Proof.Machine

/-! ### The program text -/

section keeps
variable {i : Instr} {s t : State}

/-- R45: a byte of `TEXT` is not among the bytes a store writes. -/
theorem Effect.memByte_of_inText (h : Effect i s t) {a : Word} (ha : s.inText a = true) :
    t.memByte a = s.memByte a := by
  cases h with
  | stored cells _ hcells =>
    refine read_writeCells_other cells s.mem a fun hmem => ?_
    exact Bool.false_ne_true ((hcells a hmem).2.symm.trans ha)
  | wroteReg r v _ => exact setReg_memByte s r v a
  | linked r target _ => exact setReg_memByte s r _ a
  | wroteHiLo | drewHiLo | fellThrough | jumped | raised => rfl

theorem step_memByte_of_inText (h : step s = .next t) {a : Word} (ha : s.inText a = true) :
    t.memByte a = s.memByte a := by
  obtain ⟨_, ⟨i, _, hexec⟩ | ⟨e, _, rfl⟩⟩ := step_next h
  · exact (exec_effect hexec).memByte_of_inText ha
  · exact takeException_memByte e s a

theorem inText_congr (h : t.params = s.params) (a : Word) : t.inText a = s.inText a :=
  congrArg (fun p : Params => covered p.text a) h

theorem run_memByte_of_inText {n : Nat} (h : core.run n s = .next t) {a : Word} (ha : s.inText a = true) :
    t.memByte a = s.memByte a := by
  have hkeeps : ∀ u v : State, u.inText a = true ∧ u.memByte a = s.memByte a → step u = .next v →
      v.inText a = true ∧ v.memByte a = s.memByte a := fun u v ⟨htext, hbyte⟩ hstep =>
    ⟨(inText_congr (step_params hstep) a).trans htext, (step_memByte_of_inText hstep htext).trans hbyte⟩
  exact (run_keeps hkeeps n s t ⟨ha, rfl⟩ h).2

/-- A word read is determined by the byte order and its four bytes (R31). -/
theorem memWord_congr {a : Word} (hparams : t.params = s.params)
    (hbytes : ∀ i < 4, t.memByte (a + BitVec.ofNat 32 i) = s.memByte (a + BitVec.ofNat 32 i)) :
    t.memWord a = s.memWord a := by
  have h0 : t.memByte a = s.memByte a := by simpa using hbytes 0 (by decide)
  rw [State.memWord, State.memWord, hparams, h0, hbytes 1 (by decide), hbytes 2 (by decide), hbytes 3 (by decide)]

end keeps

/-- Settles O17: no step changes a byte of `TEXT`, and a word is its bytes. -/
theorem textNeverChanges : Obligations.TextNeverChanges := fun n s t h =>
  ⟨fun _ ha => run_memByte_of_inText h ha, fun _ ha =>
    memWord_congr (parametersFixedForRun n s t h) fun i hi => run_memByte_of_inText h (ha i hi)⟩

/-! ### The exceptions that are raised -/

/-- The exceptions that the fetch, the decoder and the instructions raise at `pc`, with the information they carry
(R170 to R173). -/
inductive Raisable (pc : Word) : Exception → Prop where
  | overflow : Raisable pc .overflow
  | systemCall : Raisable pc .systemCall
  /-- R171, at the fetch. -/
  | fetch (h : pc.toNat % 4 ≠ 0) : Raisable pc (.addressError .fetch pc)
  /-- R171, at a load or a store. -/
  | data {access : AccessKind} {addr : Word} (haccess : access ≠ .fetch) (h : addr.toNat % 4 ≠ 0) :
      Raisable pc (.addressError access addr)
  /-- R173. -/
  | reservedInstruction {w : Word} {err : DecodeError} (h : decode w = .error err) :
      Raisable pc (.reservedInstruction w)

/-- R176: the record of such an exception uses its fields as the table says. -/
theorem Raisable.trapConsistent {pc : Word} {e : Exception} (h : Raisable pc e) :
    trapConsistent pc (e.record pc) = true := by
  cases h with
  | overflow | systemCall => simp [Sys2Proof.trapConsistent, Exception.record]
  | fetch h => simp [Sys2Proof.trapConsistent, Exception.record, h]
  | @data access _ haccess h =>
    cases access with
    | load | store => simp [Sys2Proof.trapConsistent, Exception.record, h]
    | fetch => exact absurd rfl haccess
  | reservedInstruction h => simp [Sys2Proof.trapConsistent, Exception.record, h, Except.toBool]

/-- The fetch raises for a misaligned `pc` and for a word that does not decode (R15, R177). -/
theorem fetchInstr_raisable {s : State} {e : Exception} (h : fetchInstr s = .exception e) : Raisable s.pc e := by
  unfold fetchInstr at h
  split at h
  · split at h
    · cases h
    · split at h
      · cases h
      · next herr => cases h; exact .reservedInstruction herr
  · next hmis => cases h; exact .fetch (mt wordAligned_iff.mpr hmis)

section raised
variable {i : Instr} {s t : State}

/-- The trap record as before, or the state an exception of `Raisable` leaves. -/
def TrapKeptOrRaised (s t : State) : Prop :=
  t.trap = s.trap ∨ ∃ e, Raisable s.pc e ∧ t = takeException e s

theorem loadReg_trap {r : RegIdx} {addrs : List Word} {v : Word} (h : loadReg r addrs v s = .next t) :
    t.trap = s.trap := by
  obtain ⟨_, rfl⟩ := loadReg_next h
  exact setReg_trap s r v

theorem storeBytes_trap {cells : List (Word × Byte)} (h : storeBytes cells s = .next t) : t.trap = s.trap := by
  obtain ⟨_, rfl⟩ := storeBytes_next h
  rfl

theorem halfAligned_of_multiple {a : Word} (h : a.toNat % 4 = 0) : halfAligned a = true := by
  simp only [halfAligned, beq_iff_eq]
  omega

/-- An access behind an alignment test that holds of every multiple of 4 leaves the trap record or raises for an
address that is no multiple of 4. -/
theorem aligned_trap {aligned : Bool} {result : Result} {access : AccessKind} {ea : Word}
    (hresult : result = .next t → t.trap = s.trap) (haligned : ea.toNat % 4 = 0 → aligned = true)
    (h : (if aligned then result else raise (.addressError access ea) s) = .next t) (haccess : access ≠ .fetch) :
    TrapKeptOrRaised s t := by
  split at h
  · exact .inl (hresult h)
  · next hmis => exact .inr ⟨_, .data haccess (mt haligned hmis), raise_next h⟩

/-- The five instructions that raise address errors (R174) do so for a misaligned effective address. -/
theorem exec_trap_of_addressError {k : AccessKind} (hi : i.canRaise = some (.addressError k))
    (h : exec i s = .next t) : TrapKeptOrRaised s t := by
  cases i with
  | lh | lhu => exact aligned_trap loadReg_trap halfAligned_of_multiple h nofun
  | lw => exact aligned_trap loadReg_trap wordAligned_iff.mpr h nofun
  | sh => exact aligned_trap storeBytes_trap halfAligned_of_multiple h nofun
  | sw => exact aligned_trap storeBytes_trap wordAligned_iff.mpr h nofun
  | _ => cases hi

theorem canRaise_ne_reservedInstruction : i.canRaise ≠ some .reservedInstruction := by cases i <;> nofun

theorem exec_trap (h : exec i s = .next t) : TrapKeptOrRaised s t := by
  cases exec_effect h with
  | raised e he =>
    cases e with
    | overflow => exact .inr ⟨_, .overflow, rfl⟩
    | systemCall => exact .inr ⟨_, .systemCall, rfl⟩
    | addressError => exact exec_trap_of_addressError he h
    | reservedInstruction => exact absurd he canRaise_ne_reservedInstruction
  | wroteReg r v _ => exact .inl (setReg_trap s r v)
  | linked r target _ => exact .inl (setReg_trap s r _)
  | wroteHiLo | drewHiLo | fellThrough | jumped | stored => exact .inl rfl

/-- A step that completes leaves no trap record, or the one of an exception of `Raisable`. -/
theorem step_trap (h : step s = .next t) : TrapKeptOrRaised s t := by
  obtain ⟨_, ⟨i, _, hexec⟩ | ⟨e, hfetch, rfl⟩⟩ := step_next h
  · exact exec_trap hexec
  · exact .inr ⟨e, fetchInstr_raisable hfetch, rfl⟩

end raised

/-! ### The invariant -/

section invariant
variable {i : Instr} {s t : State}

theorem inv_iff : s.inv = true ↔
    s.mem.wf = true ∧ s.regs[0] = 0#32 ∧ s.trap.all (trapConsistent s.pc) = true := by
  simp [State.inv, and_assoc]

/-- R34: memory stays in its canonical form. -/
theorem Effect.mem_wf (h : Effect i s t) (hwf : s.mem.wf = true) : t.mem.wf = true := by
  cases h with
  | stored cells _ _ => exact wf_writeCells cells s.mem hwf
  | wroteReg r v _ => exact (setReg_mem s r v).symm ▸ hwf
  | linked r target _ => exact (setReg_mem s r _).symm ▸ hwf
  | wroteHiLo | drewHiLo | fellThrough | jumped | raised => exact hwf

/-- R11: the storage of register 0 is never written. -/
theorem Effect.storage_zero (h : Effect i s t) : t.regs[0] = s.regs[0] := by
  cases h with
  | wroteReg r v _ => exact setReg_storage_zero s r v
  | linked r target _ => exact setReg_storage_zero s r _
  | wroteHiLo | drewHiLo | fellThrough | jumped | stored | raised => rfl

theorem step_mem_wf (h : step s = .next t) (hwf : s.mem.wf = true) : t.mem.wf = true := by
  obtain ⟨_, ⟨i, _, hexec⟩ | ⟨e, _, rfl⟩⟩ := step_next h
  · exact (exec_effect hexec).mem_wf hwf
  · exact hwf

theorem step_storage_zero (h : step s = .next t) : t.regs[0] = s.regs[0] := by
  obtain ⟨_, ⟨i, _, hexec⟩ | ⟨e, _, rfl⟩⟩ := step_next h
  · exact (exec_effect hexec).storage_zero
  · rfl

/-- R176: a trap record that a step leaves is consistent with the `pc` at which the run ended. -/
theorem step_trapConsistent (h : step s = .next t) : t.trap.all (trapConsistent t.pc) = true := by
  obtain hkept | ⟨e, hraised, rfl⟩ := step_trap h
  · rw [hkept, (step_next h).1]
    rfl
  · exact hraised.trapConsistent

end invariant

/-- Settles O18, part by part of the invariant. -/
theorem stepKeepsInvariant : Obligations.StepKeepsInvariant := by
  intro s t hinv h
  obtain ⟨hmem, hzero, _⟩ := inv_iff.mp hinv
  exact inv_iff.mpr ⟨step_mem_wf h hmem, (step_storage_zero h).trans hzero, step_trapConsistent h⟩

end Sys2Proof.Machine

/-! SUPPORT. Memory accesses of one, two and four bytes (spec/20_memory.md R31, R32, R34, R40). -/

namespace Sys2Proof.Machine

/-! ### Bytes joined (R31) -/

theorem toNat_append_byte {n : Nat} (x : BitVec n) (b : Byte) : (x ++ b).toNat = b.toNat + 2 ^ 8 * x.toNat := by
  rw [BitVec.toNat_append, ← Nat.shiftLeft_add_eq_or_of_lt b.isLt, Nat.shiftLeft_eq]
  ring

theorem joinHalf_little_toNat (b0 b1 : Byte) : (joinHalf .little b0 b1).toNat = b0.toNat + 2 ^ 8 * b1.toNat :=
  toNat_append_byte b1 b0

theorem joinHalf_big_toNat (b0 b1 : Byte) : (joinHalf .big b0 b1).toNat = b1.toNat + 2 ^ 8 * b0.toNat :=
  toNat_append_byte b0 b1

theorem joinWord_little_toNat (b0 b1 b2 b3 : Byte) : (joinWord .little b0 b1 b2 b3).toNat =
    b0.toNat + 2 ^ 8 * b1.toNat + 2 ^ 16 * b2.toNat + 2 ^ 24 * b3.toNat := by
  simp only [joinWord, toNat_append_byte]
  ring

theorem joinWord_big (b0 b1 b2 b3 : Byte) : joinWord .big b0 b1 b2 b3 = joinWord .little b3 b2 b1 b0 := rfl

/-- Settles O24: a half word and a word are joined from their bytes, the most significant byte in front. -/
theorem readsJoinBytesByEndian : Obligations.ReadsJoinBytesByEndian := by
  intro s a b
  have hb0 : (s.memByte a).toNat = b 0 := by simp [b]
  refine ⟨fun he => ⟨?_, ?_⟩, fun he => ⟨?_, ?_⟩⟩
  · rw [State.memHalf, he, joinHalf_little_toNat, hb0]
  · rw [State.memWord, he, joinWord_little_toNat, hb0]
  · rw [State.memHalf, he, joinHalf_big_toNat, hb0]
  · rw [State.memWord, he, joinWord_big, joinWord_little_toNat, hb0]

/-! ### The bytes a write places (R32) -/

theorem byteOf_append (v : Word) (j : Nat) : byteOf v (j + 1) ++ byteOf v j = v.extractLsb' (8 * j) 16 :=
  BitVec.extractLsb'_append_extractLsb'_eq_extractLsb' (by omega)

/-- The significance of the less significant byte of the half word at offset `i` in a value of `n` bytes. -/
def lowByteOfHalf (e : Endian) (n i : Nat) : Nat :=
  match e with
  | .little => i
  | .big => n - 2 - i

theorem joinHalf_storedByte (e : Endian) {n i : Nat} (v : Word) (h : i + 2 ≤ n) :
    joinHalf e (storedByte e n v i) (storedByte e n v (i + 1)) = v.extractLsb' (8 * lowByteOfHalf e n i) 16 := by
  cases e with
  | little => exact byteOf_append v i
  | big =>
    have hi : n - 1 - i = n - 2 - i + 1 := by omega
    have hnext : n - 1 - (i + 1) = n - 2 - i := by omega
    simp only [joinHalf, storedByte, lowByteOfHalf, hi, hnext, byteOf_append]

theorem joinWord_storedByte (e : Endian) (v : Word) : joinWord e (storedByte e 4 v 0) (storedByte e 4 v 1)
    (storedByte e 4 v 2) (storedByte e 4 v 3) = v := by
  have hjoin : byteOf v 3 ++ byteOf v 2 ++ byteOf v 1 ++ byteOf v 0 = v := by
    unfold byteOf
    rw [BitVec.extractLsb'_append_extractLsb'_eq_extractLsb' (by decide),
      BitVec.extractLsb'_append_extractLsb'_eq_extractLsb' (by decide),
      BitVec.extractLsb'_append_extractLsb'_eq_extractLsb' (by decide)]
    exact BitVec.extractLsb'_eq_self
  cases e with
  | little => exact hjoin
  | big => exact hjoin

theorem storedCells_addresses (e : Endian) (a : Word) (n : Nat) (v : Word) :
    (storedCells e a n v).map (·.1) = addressRange a n := by
  simp [storedCells, addressRange]

/-- An access of at most 2^32 bytes has as many addresses, although they wrap. -/
theorem addressRange_nodup (a : Word) {n : Nat} (hn : n ≤ 2 ^ 32) : (addressRange a n).Nodup := by
  refine List.Nodup.map_on (fun i hi j hj hij => ?_) List.nodup_range
  have hlt : i < 2 ^ 32 ∧ j < 2 ^ 32 := ⟨(List.mem_range.mp hi).trans_le hn, (List.mem_range.mp hj).trans_le hn⟩
  have hoffset : BitVec.ofNat 32 i = BitVec.ofNat 32 j := (BitVec.add_right_inj a).mp hij
  rwa [BitVec.toNat_eq, BitVec.toNat_ofNat, BitVec.toNat_ofNat, Nat.mod_eq_of_lt hlt.1,
    Nat.mod_eq_of_lt hlt.2] at hoffset

theorem read_writeCells_storedCells (m : Memory) (e : Endian) (a v : Word) {n i : Nat} (hn : n ≤ 2 ^ 32)
    (hi : i < n) :
    (m.writeCells (storedCells e a n v)).read (a + BitVec.ofNat 32 i) = storedByte e n v i := by
  refine read_writeCells_mem _ m (a + BitVec.ofNat 32 i, storedByte e n v i) ?_ ?_
  · rw [storedCells_addresses]
    exact addressRange_nodup a hn
  · exact List.mem_map.mpr ⟨i, List.mem_range.mpr hi, rfl⟩

theorem read_writeCells_storedCells_other (m : Memory) (e : Endian) (a v : Word) {n : Nat} {p : Word}
    (hp : ∀ i < n, p ≠ a + BitVec.ofNat 32 i) : (m.writeCells (storedCells e a n v)).read p = m.read p := by
  refine read_writeCells_other _ m p ?_
  rw [storedCells_addresses, mem_addressRange]
  rintro ⟨i, hi, heq⟩
  exact hp i hi heq

/-! ### Reading what the memory holds byte by byte -/

/-- The `n` bytes from `a` up are the bytes of `v`, in the byte order of the state (R32). -/
def HoldsBytes (s : State) (a : Word) (n : Nat) (v : Word) : Prop :=
  ∀ i < n, s.memByte (a + BitVec.ofNat 32 i) = storedByte s.params.endian n v i

section holdsBytes
variable {s : State} {a v : Word} {n : Nat}

theorem holdsBytes_writeCells (s : State) (a v : Word) (hn : n ≤ 2 ^ 32) :
    HoldsBytes { s with mem := s.mem.writeCells (storedCells s.params.endian a n v) } a n v :=
  fun _ hi => read_writeCells_storedCells s.mem s.params.endian a v hn hi

theorem HoldsBytes.memHalf (h : HoldsBytes s a n v) {i : Nat} (hi : i + 2 ≤ n) :
    s.memHalf (a + BitVec.ofNat 32 i) = v.extractLsb' (8 * lowByteOfHalf s.params.endian n i) 16 := by
  have hnext : a + BitVec.ofNat 32 i + 1#32 = a + BitVec.ofNat 32 (i + 1) := by
    rw [BitVec.add_assoc, BitVec.ofNat_add]
  rw [State.memHalf, hnext, h i (by omega), h (i + 1) (by omega), joinHalf_storedByte _ _ hi]

theorem HoldsBytes.memWord (h : HoldsBytes s a 4 v) : s.memWord a = v := by
  have h0 : s.memByte a = storedByte s.params.endian 4 v 0 := by simpa using h 0 (by decide)
  rw [State.memWord, h0, h 1 (by decide), h 2 (by decide), h 3 (by decide), joinWord_storedByte]

end holdsBytes

/-- Settles O25: the write places its bytes, and the reads join them again. -/
theorem writePlacesBytesAndReadsBack : Obligations.WritePlacesBytesAndReadsBack := by
  intro s a v n hn t
  have hplaced : HoldsBytes t a n v := holdsBytes_writeCells s a v (by omega)
  refine ⟨fun i hi => ?_, fun p hp => ?_, ?_, ?_, ?_⟩
  · exact hplaced i hi
  · exact read_writeCells_storedCells_other s.mem s.params.endian a v hp
  · rintro rfl
    have hbyte : storedByte s.params.endian 1 v 0 = byteOf v 0 := by cases s.params.endian <;> rfl
    simpa [hbyte, byteOf, t] using hplaced 0 (by decide)
  · rintro rfl
    have hlow : lowByteOfHalf s.params.endian 2 0 = 0 := by cases s.params.endian <;> rfl
    simpa [hlow, t] using hplaced.memHalf (i := 0) (by decide)
  · rintro rfl
    exact hplaced.memWord

/-! ### The canonical form (R34, log 4) -/

theorem wf_cons_entry {c : Host.Cell} {m : Memory} (h : Memory.wf (c :: m) = true) :
    c.1 < 2 ^ 32 ∧ c.2 ≠ unlistedByte := by
  obtain ⟨hok, _, _⟩ := (wf_cons c m).mp h
  simpa [Memory.entryOk] using hok

theorem wf_tail {c : Host.Cell} {m : Memory} (h : Memory.wf (c :: m) = true) : m.wf = true := by
  obtain ⟨_, _, htail⟩ := (wf_cons c m).mp h
  exact htail

theorem readAt_of_forall_lt {j : Nat} {m : Memory} (h : ∀ d ∈ m, j < d.1) : m.readAt j = unlistedByte := by
  induction m with
  | nil => rfl
  | cons c m ih =>
    rw [readAt_cons, if_neg (h c List.mem_cons_self).ne', ih fun d hd => h d (List.mem_cons_of_mem c hd)]

/-- No entry of a canonical memory lies below or at the address of its head, but the head. -/
theorem readAt_tail_of_le {c : Host.Cell} {m : Memory} (h : Memory.wf (c :: m) = true) {j : Nat} (hj : j ≤ c.1) :
    m.readAt j = unlistedByte := by
  obtain ⟨_, hrising, _⟩ := (wf_cons c m).mp h
  exact readAt_of_forall_lt fun d hd => hj.trans_lt (hrising d hd)

/-- Where a canonical memory reads as another list, its least address is no less than that list's. -/
theorem head_le_head {c d : Host.Cell} {m k : Memory} (hm : Memory.wf (c :: m) = true)
    (hk : Memory.wf (d :: k) = true) (h : ∀ j < 2 ^ 32, Memory.readAt j (c :: m) = Memory.readAt j (d :: k)) :
    c.1 ≤ d.1 := by
  obtain ⟨hlt, hlisted⟩ := wf_cons_entry hk
  by_contra! hdc
  have hread := h d.1 hlt
  rw [readAt_cons, readAt_cons, if_neg hdc.ne', if_pos rfl, readAt_tail_of_le hm hdc.le] at hread
  exact hlisted hread.symm

theorem not_reads_nil {c : Host.Cell} {m : Memory} (hm : Memory.wf (c :: m) = true) :
    ¬ ∀ j < 2 ^ 32, Memory.readAt j (c :: m) = Memory.readAt j [] := by
  obtain ⟨hlt, hlisted⟩ := wf_cons_entry hm
  intro h
  exact hlisted (by simpa using h c.1 hlt)

/-- Canonical memories with the same bytes are the same list, by induction on both. -/
theorem eq_of_readAt_eq {m k : Memory} (hm : m.wf = true) (hk : k.wf = true)
    (h : ∀ j < 2 ^ 32, Memory.readAt j m = Memory.readAt j k) : m = k := by
  induction m generalizing k with
  | nil =>
    cases k with
    | nil => rfl
    | cons d k => exact absurd (fun j hj => (h j hj).symm) (not_reads_nil hk)
  | cons c m ih =>
    cases k with
    | nil => exact absurd h (not_reads_nil hm)
    | cons d k =>
      have haddr : c.1 = d.1 :=
        (head_le_head hm hk h).antisymm (head_le_head hk hm fun j hj => (h j hj).symm)
      have hbyte : c.2 = d.2 := by simpa [haddr] using h c.1 (wf_cons_entry hm).1
      have htail : ∀ j < 2 ^ 32, Memory.readAt j m = Memory.readAt j k := by
        intro j hj
        by_cases hjc : j = c.1
        · rw [readAt_tail_of_le hm hjc.le, readAt_tail_of_le hk (hjc.trans haddr).le]
        · have hread := h j hj
          rwa [readAt_cons, readAt_cons, if_neg (Ne.symm hjc), if_neg (haddr ▸ Ne.symm hjc)] at hread
      rw [Prod.ext haddr hbyte, ih (wf_tail hm) (wf_tail hk) htail]

/-- Settles O26: reading every address is reading every number below 2^32. -/
theorem canonicalMemoryIsExtensional : Obligations.CanonicalMemoryIsExtensional := by
  intro m k hm hk h
  refine eq_of_readAt_eq hm hk fun j hj => ?_
  have hread := h (BitVec.ofNat 32 j)
  rwa [Memory.read, Memory.read, BitVec.toNat_ofNat, Nat.mod_eq_of_lt hj] at hread

/-! ### Effective addresses (R40) -/

theorem toNat_sext (imm : Half) : ((sext imm).toNat : Int) = imm.toInt % 2 ^ 32 := by
  rw [sext, BitVec.signExtend, BitVec.toNat_ofInt]
  exact Int.toNat_of_nonneg (Int.emod_nonneg _ (by decide))

/-- Settles O27: the sum of words is the sum modulo 2^32, in which the offset counts as its signed value. -/
theorem effectiveAddressWraps : Obligations.EffectiveAddressWraps := by
  intro s rs imm
  rw [effectiveAddress, BitVec.toNat_add]
  push_cast
  rw [toNat_sext]
  exact Int.add_emod_emod _ _ _

/-- A small offset is added as it is. -/
theorem sext_of_small {imm : Half} (h : imm.toNat < 2 ^ 15) : sext imm = BitVec.ofNat 32 imm.toNat := by
  have himm : imm.toInt = imm.toNat := BitVec.toInt_eq_toNat_of_lt (by omega)
  rw [sext, BitVec.signExtend, himm, BitVec.ofInt_natCast]

theorem effectiveAddress_of_small {s : State} {rs : RegIdx} {imm : Half} (h : imm.toNat < 2 ^ 15) :
    effectiveAddress s rs imm = effectiveAddress s rs 0 + BitVec.ofNat 32 imm.toNat := by
  have hzero : sext 0 = 0#32 := rfl
  rw [effectiveAddress, effectiveAddress, sext_of_small h, hzero, BitVec.add_zero]

/-! ### Narrow loads after a store (R34) -/

section accesses
variable {s : State} {rs rt : RegIdx} {imm : Half}

theorem storeBytes_storedCells {e : Endian} {a v : Word} {n : Nat} (h : BytesWritable s a n) :
    storeBytes (storedCells e a n v) s =
      .next { s with mem := s.mem.writeCells (storedCells e a n v) }.advance := by
  refine storeBytes_writable ?_
  rw [storedCells_addresses]
  intro p hp
  obtain ⟨i, hi, rfl⟩ := mem_addressRange.mp hp
  exact h i hi

theorem loadReg_addressRange {a v : Word} {n : Nat} (h : BytesValid s a n) :
    loadReg rt (addressRange a n) v s = .next (s.setReg rt v).advance := by
  refine loadReg_valid fun p hp => ?_
  obtain ⟨i, hi, rfl⟩ := mem_addressRange.mp hp
  exact h i hi

theorem exec_sw_writable (haligned : (effectiveAddress s rs imm).toNat % 4 = 0)
    (h : BytesWritable s (effectiveAddress s rs imm) 4) :
    exec (.sw rs rt imm) s = .next { s with
      mem := s.mem.writeCells
        (storedCells s.params.endian (effectiveAddress s rs imm) 4 (s.reg rt)) }.advance :=
  (if_pos (wordAligned_iff.mpr haligned)).trans (storeBytes_storedCells h)

theorem exec_lbu_valid (h : BytesValid s (effectiveAddress s rs imm) 1) :
    exec (.lbu rs rt imm) s =
      .next (s.setReg rt ((s.memByte (effectiveAddress s rs imm)).zeroExtend 32)).advance :=
  loadReg_addressRange h

theorem exec_lhu_valid (haligned : (effectiveAddress s rs imm).toNat % 2 = 0)
    (h : BytesValid s (effectiveAddress s rs imm) 2) :
    exec (.lhu rs rt imm) s =
      .next (s.setReg rt ((s.memHalf (effectiveAddress s rs imm)).zeroExtend 32)).advance :=
  (if_pos (beq_iff_eq.mpr haligned)).trans (loadReg_addressRange h)

theorem setReg_advance_reg_same {v : Word} (hr : rt ≠ 0#5) : (s.setReg rt v).advance.reg rt = v := by
  rw [advance_reg, setReg_reg, if_pos ⟨rfl, hr⟩]

/-- The bytes from an offset on are among the bytes of the whole access. -/
theorem bytesValid_offset {a : Word} {n i k : Nat} (h : BytesValid s a n) (hik : i + k ≤ n) :
    BytesValid s (a + BitVec.ofNat 32 i) k := by
  intro j hj
  rw [BitVec.add_assoc, ← BitVec.ofNat_add]
  exact h (i + j) (by omega)

/-- A byte load inside a word that memory holds. -/
theorem lbu_of_holdsBytes {v : Word} (hvalid : BytesValid s (effectiveAddress s rs 0) 4)
    (hbytes : HoldsBytes s (effectiveAddress s rs 0) 4 v) (hrt : rt ≠ 0#5) (himm : imm.toNat < 4) :
    ∃ u, exec (.lbu rs rt imm) s = .next u ∧
      u.reg rt = BitVec.ofNat 32 (storedByte s.params.endian 4 v imm.toNat).toNat := by
  have haddr := effectiveAddress_of_small (s := s) (rs := rs) (show imm.toNat < 2 ^ 15 by omega)
  refine ⟨_, exec_lbu_valid (haddr ▸ bytesValid_offset hvalid (by omega)), ?_⟩
  rw [setReg_advance_reg_same hrt, haddr, hbytes _ himm, BitVec.ofNat_toNat]

/-- A half word load inside an aligned word that memory holds. -/
theorem lhu_of_holdsBytes {v : Word} (haligned : (effectiveAddress s rs 0).toNat % 4 = 0)
    (hvalid : BytesValid s (effectiveAddress s rs 0) 4)
    (hbytes : HoldsBytes s (effectiveAddress s rs 0) 4 v) (hrt : rt ≠ 0#5)
    (himm : imm.toNat = 0 ∨ imm.toNat = 2) :
    ∃ u, exec (.lhu rs rt imm) s = .next u ∧
      u.reg rt = BitVec.ofNat 32 (v.extractLsb' (8 * lowByteOfHalf s.params.endian 4 imm.toNat) 16).toNat := by
  have haddr := effectiveAddress_of_small (s := s) (rs := rs) (show imm.toNat < 2 ^ 15 by omega)
  have heven : (effectiveAddress s rs imm).toNat % 2 = 0 := by
    rw [haddr, BitVec.toNat_add, BitVec.toNat_ofNat]
    omega
  refine ⟨_, exec_lhu_valid heven (haddr ▸ bytesValid_offset hvalid (by omega)), ?_⟩
  rw [setReg_advance_reg_same hrt, haddr, hbytes.memHalf (by omega), BitVec.ofNat_toNat]

end accesses

/-- Settles O55: after the store memory holds the word, and the loads read inside it. -/
theorem narrowLoadsAfterStoreWord : Obligations.NarrowLoadsAfterStoreWord := by
  intro s rs rt rq imm off A v haligned hwritable hrq himm hoff
  refine ⟨_, exec_sw_writable haligned hwritable, ?_⟩
  set t : State := { s with mem := s.mem.writeCells (storedCells s.params.endian A 4 v) }.advance
  have hvalid : BytesValid t A 4 := fun i hi => (hwritable i hi).1
  have hbytes : HoldsBytes t A 4 v := holdsBytes_writeCells s A v (by decide)
  have hoff' : off.toNat = 0 ∨ off.toNat = 2 := hoff.imp (congrArg BitVec.toNat) (congrArg BitVec.toNat)
  obtain ⟨u, hlbu, hbyte⟩ := lbu_of_holdsBytes (s := t) hvalid hbytes hrq himm
  obtain ⟨w, hlhu, hhalf⟩ := lhu_of_holdsBytes (s := t) haligned hvalid hbytes hrq hoff'
  refine ⟨⟨u, hlbu, hbyte.trans ?_⟩, w, hlhu, hhalf.trans ?_⟩
  · change BitVec.ofNat 32 (storedByte s.params.endian 4 v imm.toNat).toNat = _
    cases s.params.endian <;> rfl
  · have hshift : 8 * lowByteOfHalf .big 4 off.toNat = 16 - 8 * off.toNat := by
      simp only [lowByteOfHalf]
      omega
    change BitVec.ofNat 32 (v.extractLsb' (8 * lowByteOfHalf s.params.endian 4 off.toNat) 16).toNat = _
    rw [BitVec.extractLsb'_toNat, Nat.shiftRight_eq_div_pow]
    cases s.params.endian with
    | little => rfl
    | big => rw [hshift]

end Sys2Proof.Machine

/-! SUPPORT. Encoding and decoding undo each other (spec/30_encoding.md R51 to R53, R59, R61): a word is what its fields
say in a format, and each branch of the decoder fixes the fields that it does not hand to the instruction. -/

namespace Sys2Proof

/-! ### A format's word, by its fields -/

section formats
variable {w : Word}

theorem rFormat_eq_iff {rs rt rd sa : BitVec 5} {funct : BitVec 6} :
    rFormat rs rt rd sa funct = w ↔ opField w = 0#6 ∧ rsField w = rs ∧ rtField w = rt ∧ rdField w = rd ∧
      saField w = sa ∧ functField w = funct := by
  constructor
  · rintro rfl
    simp
  · rintro ⟨hop, rfl, rfl, rfl, rfl, rfl⟩
    exact (congrArg (· ++ _ ++ _ ++ _ ++ _ ++ _) hop.symm).trans (word_of_rFields w)

theorem iFormat_eq_iff {op : BitVec 6} {rs rt : BitVec 5} {imm : Half} :
    iFormat op rs rt imm = w ↔ opField w = op ∧ rsField w = rs ∧ rtField w = rt ∧ immField w = imm := by
  constructor
  · rintro rfl
    simp
  · rintro ⟨rfl, rfl, rfl, rfl⟩
    exact word_of_iFields w

theorem jFormat_eq_iff {op : BitVec 6} {target : BitVec 26} :
    jFormat op target = w ↔ opField w = op ∧ targetField w = target := by
  constructor
  · rintro rfl
    simp
  · rintro ⟨rfl, rfl⟩
    exact word_of_jFields w

theorem syscallFormat_eq_iff {code : BitVec 20} :
    syscallFormat code = w ↔ opField w = 0#6 ∧ codeField w = code ∧ functField w = 12#6 := by
  constructor
  · rintro rfl
    simp
  · rintro ⟨hop, rfl, hfunct⟩
    exact (congrArg₂ (· ++ _ ++ ·) hop.symm hfunct.symm).trans (word_of_syscallFields w)

end formats

/-! ### From an instruction to its word and back -/

theorem decode_encode (i : Instr) : decode (encode i) = .ok i := by
  cases i with
  | add | addu | sub | subu | and | nor | or | xor | sllv | srav | srlv | slt | sltu | sll | sra | srl
  | div | divu | mult | multu | mfhi | mflo | mthi | mtlo | jlr | jr =>
    simp [encode, decode, decodeRFormat, whenZero]
  | syscall => simp [encode, decode, decodeRFormat]
  | bgez | bgezal | bltz | bltzal => simp [encode, decode, decodeRegimm]
  | bgtz | blez | lui => simp [encode, decode, whenZero]
  | _ => simp [encode, decode]

/-- Settles O1: the fields of a format's word are those it was put together from. -/
theorem decodeOfEncode : Obligations.DecodeOfEncode := decode_encode

/-! ### From a word to its instruction and back -/

/-- The decoder branches on the number in a field; the field is then that number's bit string. -/
theorem eq_ofNat_of_toNat {n k : Nat} {x : BitVec n} (h : x.toNat = k) : x = BitVec.ofNat n k := by
  rw [← h, BitVec.ofNat_toNat, BitVec.setWidth_eq]

/-- R61 (b): a branch with unused fields answers only if they are zero. -/
theorem encode_of_whenZero {unused : Bool} {mnemonic : String} {i j : Instr} {w : Word}
    (h : whenZero unused mnemonic j = .ok i) (hj : unused = true → encode j = w) : encode i = w := by
  unfold whenZero at h
  split at h
  next hzero =>
    cases h
    exact hj hzero
  next => cases h

theorem encode_of_decodeRFormat {w : Word} {i : Instr} (hop : opField w = 0#6) (h : decodeRFormat w = .ok i) :
    encode i = w := by
  unfold decodeRFormat at h
  split at h
  case h_9 hfunct => -- `syscall`, with a format of its own
    cases h
    exact syscallFormat_eq_iff.mpr ⟨hop, rfl, eq_ofNat_of_toNat hfunct⟩
  case h_28 => cases h -- no function code of the table
  all_goals
    rename_i hfunct
    refine encode_of_whenZero h fun hzero => rFormat_eq_iff.mpr ?_
    simp_all [eq_ofNat_of_toNat hfunct]

theorem encode_of_decodeRegimm {w : Word} {i : Instr} (hop : opField w = 1#6) (h : decodeRegimm w = .ok i) :
    encode i = w := by
  unfold decodeRegimm at h
  split at h
  case h_5 => cases h -- no sub-opcode of the table
  all_goals
    rename_i hsub
    cases h
    exact iFormat_eq_iff.mpr ⟨hop, rfl, eq_ofNat_of_toNat hsub, rfl⟩

theorem encode_of_decode {w : Word} {i : Instr} (h : decode w = .ok i) : encode i = w := by
  unfold decode at h
  split at h
  case h_1 hop => exact encode_of_decodeRFormat (eq_ofNat_of_toNat hop) h
  case h_2 hop => exact encode_of_decodeRegimm (eq_ofNat_of_toNat hop) h
  case h_3 hop | h_4 hop => -- `j` and `jal`
    cases h
    exact jFormat_eq_iff.mpr ⟨eq_ofNat_of_toNat hop, rfl⟩
  case h_7 hop | h_8 hop => -- `blez` and `bgtz`, whose `rt` field is unused
    exact encode_of_whenZero h fun hrt => iFormat_eq_iff.mpr ⟨eq_ofNat_of_toNat hop, rfl, eq_of_beq hrt, rfl⟩
  case h_16 hop => -- `lui`, whose `rs` field is unused
    exact encode_of_whenZero h fun hrs => iFormat_eq_iff.mpr ⟨eq_ofNat_of_toNat hop, eq_of_beq hrs, rfl, rfl⟩
  case h_29 => cases h -- no Op-Code of the table
  all_goals
    rename_i hop
    cases h
    exact iFormat_eq_iff.mpr ⟨eq_ofNat_of_toNat hop, rfl, rfl, rfl⟩

/-- Settles O2: the branch taken fixes every bit of the word that is not a field of the instruction. -/
theorem encodeOfDecode : Obligations.EncodeOfDecode := fun _ _ => encode_of_decode

/-! ### Words of the spec -/

/-- Settles O4: each of the ten words is the encoding of its instruction. Of the refused ones, the first is `add` with a
non-zero `sa` field, the second has an Op-Code of no instruction. -/
theorem specWordsDecode : Obligations.SpecWordsDecode :=
  ⟨decode_encode (.add 1 2 3), decode_encode (.addi 8 9 0xFFFF), decode_encode (.jlr 25 31), decode_encode (.jr 31),
    decode_encode (.lb 29 9 0xFFFC), decode_encode (.mfhi 2), decode_encode (.bgezal 8 4), decode_encode (.j 0x100008),
    decode_encode (.sra 9 10 31), decode_encode (.syscall 0xFFFFF), rfl, rfl⟩

end Sys2Proof

/-! SUPPORT. The opcode table decides the decoding (spec/30_encoding.md R60), by comparing a word with a row's pattern
field by field. -/

namespace Sys2Proof.Laws.EncodeMeetsRow

theorem all : ∀ i : Instr, Statement i
  | .add .. => add .. | .addi .. => addi .. | .addiu .. => addiu .. | .addu .. => addu .. | .sub .. => sub ..
  | .subu .. => subu .. | .and .. => and .. | .andi .. => andi .. | .lui .. => lui .. | .nor .. => nor ..
  | .or .. => or .. | .ori .. => ori .. | .xor .. => xor .. | .xori .. => xori .. | .beq .. => beq ..
  | .bgez .. => bgez .. | .bgezal .. => bgezal .. | .bgtz .. => bgtz .. | .blez .. => blez ..
  | .bltzal .. => bltzal .. | .bltz .. => bltz .. | .bne .. => bne .. | .div .. => div ..
  | .divu .. => divu .. | .mfhi .. => mfhi .. | .mflo .. => mflo .. | .mthi .. => mthi ..
  | .mtlo .. => mtlo .. | .mult .. => mult .. | .multu .. => multu .. | .j .. => j .. | .jal .. => jal ..
  | .jlr .. => jlr .. | .jr .. => jr .. | .lb .. => lb .. | .lbu .. => lbu .. | .lh .. => lh ..
  | .lhu .. => lhu .. | .lw .. => lw .. | .lwl .. => lwl .. | .lwr .. => lwr .. | .sb .. => sb ..
  | .sh .. => sh .. | .sw .. => sw .. | .swl .. => swl .. | .swr .. => swr .. | .sll .. => sll ..
  | .sllv .. => sllv .. | .sra .. => sra .. | .srav .. => srav .. | .srl .. => srl .. | .srlv .. => srlv ..
  | .slt .. => slt .. | .slti .. => slti .. | .sltui .. => sltui .. | .sltu .. => sltu ..
  | .syscall .. => syscall ..

end Sys2Proof.Laws.EncodeMeetsRow

namespace Sys2Proof

/-- A mask that covers a five-bit field leaves it as it is. -/
theorem and_fiveOnes (x : BitVec 5) : x &&& 0x1f#5 = x := BitVec.and_allOnes

/-- A mask that covers a six-bit field leaves it as it is. -/
theorem and_sixOnes (x : BitVec 6) : x &&& 0x3f#6 = x := BitVec.and_allOnes

theorem fields_of_match {w mask pattern : Word} (h : w &&& mask = pattern) :
    opField w &&& mask.extractLsb' 26 6 = pattern.extractLsb' 26 6 ∧
    rsField w &&& mask.extractLsb' 21 5 = pattern.extractLsb' 21 5 ∧
    rtField w &&& mask.extractLsb' 16 5 = pattern.extractLsb' 16 5 ∧
    rdField w &&& mask.extractLsb' 11 5 = pattern.extractLsb' 11 5 ∧
    saField w &&& mask.extractLsb' 6 5 = pattern.extractLsb' 6 5 ∧
    functField w &&& mask.extractLsb' 0 6 = pattern.extractLsb' 0 6 := by
  subst h
  simp only [opField, rsField, rtField, rdField, saField, functField, BitVec.extractLsb'_and, and_self]

/-- A row's mask covers every field that the decoder branches on or wants zero on its way to the row's instruction. -/
theorem map_decode_of_match {i : Instr} {w : Word} (h : w &&& i.opcodeRow.mask = i.opcodeRow.pattern) :
    (decode w).map Instr.opcodeRow = .ok i.opcodeRow := by
  have hfields := fields_of_match h
  clear h
  cases i
  all_goals
    simp only [Instr.opcodeRow] at hfields ⊢
    simp only [BitVec.reduceExtractLsb', and_fiveOnes, and_sixOnes, BitVec.and_zero, true_and, and_true] at hfields
    simp [decode, decodeRFormat, decodeRegimm, whenZero, hfields, Except.map]
    rfl

theorem match_iff_decode {i : Instr} {w : Word} :
    w &&& i.opcodeRow.mask = i.opcodeRow.pattern ↔ ∃ j, decode w = .ok j ∧ j.opcodeRow = i.opcodeRow := by
  constructor
  · intro h
    have hrow := map_decode_of_match h
    cases hw : decode w with
    | error e => simp [hw, Except.map] at hrow
    | ok j => exact ⟨j, rfl, by simpa [hw, Except.map] using hrow⟩
  · rintro ⟨j, hj, hrow⟩
    rw [← hrow, ← encode_of_decode hj]
    exact Laws.EncodeMeetsRow.all j

theorem match_row_iff_decode {w : Word} {row : OpcodeRow} (hrow : row ∈ opcodeRows) :
    w &&& row.mask = row.pattern ↔ ∃ i, decode w = .ok i ∧ i.opcodeRow = row := by
  obtain ⟨i, -, rfl⟩ := List.mem_map.mp hrow
  exact match_iff_decode

theorem opcodeRows_nodup : opcodeRows.Nodup := by decide

/-- Settles O3: two rows that one word matches are both the row of the one instruction it decodes to. -/
theorem opcodeTableDecides : Obligations.OpcodeTableDecides := by
  refine ⟨rfl, opcodeRows_nodup.pairwise_of_forall_ne ?_, fun w row => match_row_iff_decode⟩
  rintro a ha b hb hne w ⟨hwa, hwb⟩
  obtain ⟨i, hi, rfl⟩ := (match_row_iff_decode ha).mp hwa
  obtain ⟨j, hj, rfl⟩ := (match_row_iff_decode hb).mp hwb
  cases hi.symm.trans hj
  exact hne rfl

end Sys2Proof

/-! SUPPORT. The all-zero word is `sll` on register 0 (spec/30_encoding.md R62). -/

namespace Sys2Proof.Machine

/-- The whole effect of an instruction that only steps on to the next one. -/
theorem advance_transferred (s : State) : Transferred s s.advance (s.pc + 4#32) where
  mem := advance_memByte s
  trap := advance_trap s
  params := advance_params s
  draws := advance_draws s
  reg := advance_reg s
  pc := advance_pc s
  hi := advance_hi s
  lo := advance_lo s

/-- Settles O60: the word decodes to `sll` with destination 0, whose write is discarded (R11). -/
theorem zeroWordChangesOnlyPc : Obligations.ZeroWordChangesOnlyPc := by
  intro s htrap hfetch hzero
  have hdecode : decode (s.memWord s.pc) = .ok (.sll 0 0 0) := hzero ▸ decode_encode (.sll 0 0 0)
  have hstep := step_instr htrap (fetchInstr_decoded hfetch hdecode)
  have hexec : exec (.sll 0 0 0) s = .next s.advance := rfl
  exact ⟨s.advance, hstep.trans hexec, advance_transferred s⟩

end Sys2Proof.Machine

/-! SUPPORT. The whole effect of an instruction that writes one register, trapping on overflow or not
(spec/10_state.md R11, R15, spec/40_arithmetic.md R70). -/

namespace Sys2Proof.Machine

/-- A word spells an instruction when it is the instruction's encoding. -/
theorem spells_encode (i : Instr) : Spells (encode i) i := ⟨decode_encode i, rfl⟩

/-- The whole effect of an instruction that writes `v` to `x[r]` and steps on to the next one. -/
theorem setReg_advance_written (s : State) (r : RegIdx) (v : Word) : RegWritten s (s.setReg r v).advance r v where
  mem := setReg_memByte s r v
  trap := setReg_trap s r v
  params := setReg_params s r v
  draws := setReg_draws s r v
  reg := setReg_reg s r v
  pc := congrArg (· + 4#32) (setReg_pc s r v)
  hi := setReg_hi s r v
  lo := setReg_lo s r v

section writeReg
variable {s : State} {r : RegIdx} {v : Word}

theorem writeReg_written {w : Word} (h : v = w) : ∃ t, writeReg r v s = .next t ∧ RegWritten s t r w :=
  ⟨_, rfl, h ▸ setReg_advance_written s r v⟩

/-- A completed register write is no exception: `pc` has moved. -/
theorem writeReg_not_trapped {t : State} {record : TrapRecord} (h : writeReg r v s = .next t) :
    ¬ Trapped s t record := by
  intro htrapped
  obtain rfl := writeReg_next h
  have hpc : s.pc + 4#32 = s.pc := by simpa using htrapped.pc
  bv_omega

/-! ### With the overflow test (R70) -/

section trapping
variable {overflows : Bool} {n : Int}

theorem writeRegTrapping_of_overflow (h : overflows = true) :
    writeRegTrapping overflows r v s = raise .overflow s := if_pos h

theorem writeRegTrapping_of_no_overflow (h : ¬ overflows = true) :
    writeRegTrapping overflows r v s = writeReg r v s := if_neg h

/-- The overflow test alone decides whether the exception is raised. -/
theorem writeRegTrapping_raises_iff :
    (∃ t, writeRegTrapping overflows r v s = .next t ∧ Trapped s t ⟨.overflow, s.pc, none, none⟩) ↔
      overflows = true := by
  constructor
  · rintro ⟨t, hnext, htrapped⟩
    by_contra hno
    rw [writeRegTrapping_of_no_overflow hno] at hnext
    exact writeReg_not_trapped hnext htrapped
  · intro h
    exact ⟨_, writeRegTrapping_of_overflow h, takeException_trapped .overflow s⟩

theorem writeRegTrapping_of_fits (hn : FitsSigned n) :
    ∃ t, writeRegTrapping (outOfRange n) r v s = .next t ∧ RegWritten s t r v := by
  rw [writeRegTrapping_of_no_overflow fun h => (outOfRange_iff n).mp h hn]
  exact writeReg_written rfl

theorem writeRegTrapping_of_not_fits (hn : ¬ FitsSigned n) :
    ∃ t, writeRegTrapping (outOfRange n) r v s = .next t ∧ Trapped s t ⟨.overflow, s.pc, none, none⟩ :=
  writeRegTrapping_raises_iff.mpr ((outOfRange_iff n).mpr hn)

end trapping

end writeReg

end Sys2Proof.Machine

/-! SUPPORT. Add and subtract (spec/40_arithmetic.md): the wrapped result is the exact one modulo 2^32, and the overflow
test on the exact integer is the one on the sign bits. -/

namespace Sys2Proof.Machine

/-! ### The six instructions, by their shared operation -/

section exec
variable (s : State) (rs rt rd : RegIdx) (imm : Half)

theorem exec_addu : exec (.addu rs rt rd) s = writeReg rd (s.reg rs + s.reg rt) s := rfl

theorem exec_subu : exec (.subu rs rt rd) s = writeReg rd (s.reg rs - s.reg rt) s := rfl

theorem exec_addiu : exec (.addiu rs rt imm) s = writeReg rt (s.reg rs + sext imm) s := rfl

theorem exec_add : exec (.add rs rt rd) s =
    writeRegTrapping (addOverflows (s.reg rs) (s.reg rt)) rd (s.reg rs + s.reg rt) s := rfl

theorem exec_sub : exec (.sub rs rt rd) s =
    writeRegTrapping (subOverflows (s.reg rs) (s.reg rt)) rd (s.reg rs - s.reg rt) s := rfl

theorem exec_addi : exec (.addi rs rt imm) s =
    writeRegTrapping (addOverflows (s.reg rs) (sext imm)) rt (s.reg rs + sext imm) s := rfl

end exec

/-! ### The wrapped result -/

theorem toInt_sext (imm : Half) : (sext imm).toInt = imm.toInt := BitVec.toInt_signExtend_of_le (by decide)

theorem ofInt_sub (m n : Int) : BitVec.ofInt 32 (m - n) = BitVec.ofInt 32 m - BitVec.ofInt 32 n := by
  rw [Int.sub_eq_add_neg, BitVec.ofInt_add, BitVec.ofInt_neg, BitVec.sub_eq_add_neg]

section wrapped
variable (a b : Word)

theorem ofInt_toNat : BitVec.ofInt 32 a.toNat = a := by
  rw [BitVec.ofInt_natCast, BitVec.ofNat_toNat, BitVec.setWidth_eq]

theorem add_eq_ofInt_toInt : a + b = BitVec.ofInt 32 (a.toInt + b.toInt) := by
  rw [BitVec.ofInt_add, BitVec.ofInt_toInt, BitVec.ofInt_toInt]

theorem sub_eq_ofInt_toInt : a - b = BitVec.ofInt 32 (a.toInt - b.toInt) := by
  rw [ofInt_sub, BitVec.ofInt_toInt, BitVec.ofInt_toInt]

theorem sub_eq_ofInt_toNat : a - b = BitVec.ofInt 32 (a.toNat - b.toNat) := by
  rw [ofInt_sub, ofInt_toNat, ofInt_toNat]

theorem add_sext_eq_ofInt_toNat (imm : Half) : a + sext imm = BitVec.ofInt 32 (a.toNat + imm.toInt) := by
  rw [BitVec.ofInt_add, ofInt_toNat, ← toInt_sext, BitVec.ofInt_toInt]

end wrapped

/-! ### The trapping instructions, by their exact result -/

section exactResult
variable (s : State) (rs rt rd : RegIdx) (imm : Half)

theorem exec_add_exact : exec (.add rs rt rd) s =
    writeRegTrapping (outOfRange ((s.reg rs).toInt + (s.reg rt).toInt)) rd
      (BitVec.ofInt 32 ((s.reg rs).toInt + (s.reg rt).toInt)) s := by
  rw [exec_add, addOverflows, add_eq_ofInt_toInt]

theorem exec_addi_exact : exec (.addi rs rt imm) s =
    writeRegTrapping (outOfRange ((s.reg rs).toInt + imm.toInt)) rt
      (BitVec.ofInt 32 ((s.reg rs).toInt + imm.toInt)) s := by
  rw [exec_addi, addOverflows, add_eq_ofInt_toInt, toInt_sext]

theorem exec_sub_exact : exec (.sub rs rt rd) s =
    writeRegTrapping (outOfRange ((s.reg rs).toInt - (s.reg rt).toInt)) rd
      (BitVec.ofInt 32 ((s.reg rs).toInt - (s.reg rt).toInt)) s := by
  rw [exec_sub, subOverflows, sub_eq_ofInt_toInt]

end exactResult

/-- Settles O29: each writes the wrapped result unconditionally, and the wrapped result is the exact one modulo 2^32. -/
theorem wrappingArithmeticResults : Obligations.WrappingArithmeticResults := fun s rs rt rd imm =>
  ⟨spells_encode (.addu rs rt rd), exec_addu s rs rt rd ▸ writeReg_written (BitVec.add_def _ _),
    spells_encode (.subu rs rt rd), exec_subu s rs rt rd ▸ writeReg_written (sub_eq_ofInt_toNat _ _),
    spells_encode (.addiu rs rt imm), exec_addiu s rs rt imm ▸ writeReg_written (add_sext_eq_ofInt_toNat _ _)⟩

/-- Settles O30: the test is on the exact result, and where it passes the wrapped result, which is the exact one, is
written. -/
theorem trappingArithmeticResults : Obligations.TrappingArithmeticResults := by
  intro s rs rt rd imm sum isum dif
  rw [exec_add_exact, exec_addi_exact, exec_sub_exact]
  exact ⟨spells_encode (.add rs rt rd), writeRegTrapping_of_fits, writeRegTrapping_of_not_fits,
    spells_encode (.addi rs rt imm), writeRegTrapping_of_fits, writeRegTrapping_of_not_fits,
    spells_encode (.sub rs rt rd), writeRegTrapping_of_fits, writeRegTrapping_of_not_fits⟩

/-! ### The overflow test -/

section overflow
variable (a b : Word)

theorem addOverflows_iff_not_fits : addOverflows a b = true ↔ ¬ FitsSigned (a.toInt + b.toInt) := outOfRange_iff _

theorem subOverflows_iff_not_fits : subOverflows a b = true ↔ ¬ FitsSigned (a.toInt - b.toInt) := outOfRange_iff _

theorem outOfRange_eq (n : Int) : outOfRange n = (decide (n ≥ 2 ^ 31) || decide (n < -2 ^ 31)) := by
  have hupper : n > 2 ^ 31 - 1 ↔ n ≥ 2 ^ 31 := by omega
  rw [outOfRange, Bool.or_comm, decide_eq_decide.mpr hupper]

theorem addOverflows_eq_saddOverflow : addOverflows a b = a.saddOverflow b := outOfRange_eq _

theorem subOverflows_eq_ssubOverflow : subOverflows a b = a.ssubOverflow b := outOfRange_eq _

theorem addOverflows_iff_signs : addOverflows a b = true ↔ a.msb = b.msb ∧ (a + b).msb ≠ a.msb := by
  simp [addOverflows_eq_saddOverflow, BitVec.saddOverflow_eq]

theorem subOverflows_iff_signs : subOverflows a b = true ↔ a.msb ≠ b.msb ∧ (a - b).msb ≠ a.msb := by
  rw [subOverflows_eq_ssubOverflow, BitVec.ssubOverflow_eq]
  cases a.msb <;> cases b.msb <;> simp

theorem toInt_add_of_addOverflows_eq_false (h : addOverflows a b = false) : (a + b).toInt = a.toInt + b.toInt :=
  BitVec.toInt_add_of_not_saddOverflow (by simp [← addOverflows_eq_saddOverflow, h])

theorem toInt_sub_of_subOverflows_eq_false (h : subOverflows a b = false) : (a - b).toInt = a.toInt - b.toInt :=
  BitVec.toInt_sub_of_not_ssubOverflow (by simp [← subOverflows_eq_ssubOverflow, h])

end overflow

/-- Settles O31: the overflow test decides whether the three raise; it is the test on the sign bits, and where it passes
they write what their untrapped twins write. -/
theorem overflowBySignBits : Obligations.OverflowBySignBits := by
  refine ⟨fun s rs rt rd imm => ?_, fun a b => ?_⟩
  · simp only [exec_add, exec_addi, exec_sub, exec_addu, exec_addiu, exec_subu, writeRegTrapping_raises_iff]
    exact ⟨addOverflows_iff_signs _ _, addOverflows_iff_signs _ _, subOverflows_iff_signs _ _,
      writeRegTrapping_of_no_overflow, writeRegTrapping_of_no_overflow, writeRegTrapping_of_no_overflow⟩
  · exact ⟨addOverflows_iff_signs a b, subOverflows_iff_signs a b, addOverflows_iff_not_fits a b,
      subOverflows_iff_not_fits a b, toInt_add_of_addOverflows_eq_false a b, toInt_sub_of_subOverflows_eq_false a b⟩

end Sys2Proof.Machine

/-! SUPPORT. Logical instructions and `lui` (spec/41_logical.md): the register write of `writeReg_written`, its value given
bit by bit. -/

namespace Sys2Proof.Machine

/-! ### The eight instructions, by their shared operation -/

section exec
variable (s : State) (rs rt rd : RegIdx) (imm : Half)

theorem exec_and : exec (.and rs rt rd) s = writeReg rd (s.reg rs &&& s.reg rt) s := rfl

theorem exec_nor : exec (.nor rs rt rd) s = writeReg rd (~~~(s.reg rs ||| s.reg rt)) s := rfl

theorem exec_or : exec (.or rs rt rd) s = writeReg rd (s.reg rs ||| s.reg rt) s := rfl

theorem exec_xor : exec (.xor rs rt rd) s = writeReg rd (s.reg rs ^^^ s.reg rt) s := rfl

theorem exec_andi : exec (.andi rs rt imm) s = writeReg rt (s.reg rs &&& zext imm) s := rfl

theorem exec_ori : exec (.ori rs rt imm) s = writeReg rt (s.reg rs ||| zext imm) s := rfl

theorem exec_xori : exec (.xori rs rt imm) s = writeReg rt (s.reg rs ^^^ zext imm) s := rfl

theorem exec_lui : exec (.lui rt imm) s = writeReg rt (upperImmediate imm) s := rfl

end exec

/-! ### The result, bit by bit -/

/-- The effect of a register write, when the bits of the value are known. -/
theorem writeReg_written_bits {s : State} {r : RegIdx} {v : Word} {bit : Nat → Bool}
    (h : ∀ n < 32, v.getLsbD n = bit n) :
    ∃ t w, writeReg r v s = .next t ∧ RegWritten s t r w ∧ ∀ n < 32, w.getLsbD n = bit n :=
  ⟨_, v, rfl, setReg_advance_written s r v, h⟩

theorem getLsbD_nor (a b : Word) {n : Nat} (hn : n < 32) :
    (~~~(a ||| b)).getLsbD n = !(a.getLsbD n || b.getLsbD n) := by
  rw [BitVec.getLsbD_not, BitVec.getLsbD_or, decide_eq_true hn, Bool.true_and]

/-- Zero extension keeps the low 16 bits and clears the others. -/
theorem getLsbD_zext (imm : Half) {n : Nat} (hn : n < 32) :
    (zext imm).getLsbD n = (decide (n < 16) && imm.getLsbD n) := by
  rw [zext, BitVec.zeroExtend, BitVec.getLsbD_setWidth, decide_eq_true hn, Bool.true_and]
  by_cases hlow : n < 16
  · rw [decide_eq_true hlow, Bool.true_and]
  · rw [BitVec.getLsbD_of_ge imm n (by omega), Bool.and_false]

/-- Appending sixteen zeros multiplies by 2^16. -/
theorem toNat_upperImmediate (imm : Half) : (upperImmediate imm).toNat = imm.toNat * 2 ^ 16 := by
  rw [upperImmediate, BitVec.toNat_append, Nat.shiftLeft_eq]
  exact Nat.or_zero _

theorem upperImmediate_eq_ofNat (imm : Half) : upperImmediate imm = BitVec.ofNat 32 (imm.toNat * 2 ^ 16) := by
  rw [← toNat_upperImmediate, BitVec.ofNat_toNat, BitVec.setWidth_eq]

/-- Settles O32: each writes the word whose bits are the operation on the operands' bits. -/
theorem logicalRegisterResults : Obligations.LogicalRegisterResults := by
  intro s rs rt rd a b
  rw [exec_and, exec_nor, exec_or, exec_xor]
  exact ⟨spells_encode (.and rs rt rd), writeReg_written_bits fun _ _ => BitVec.getLsbD_and,
    spells_encode (.nor rs rt rd), writeReg_written_bits fun _ hn => getLsbD_nor _ _ hn,
    spells_encode (.or rs rt rd), writeReg_written_bits fun _ _ => BitVec.getLsbD_or,
    spells_encode (.xor rs rt rd), writeReg_written_bits fun _ _ => BitVec.getLsbD_xor⟩

/-- Settles O33: the second operand is the zero-extended immediate, whose bits are known, or for `lui` the immediate in
the upper half, whose value is. -/
theorem logicalImmediateResults : Obligations.LogicalImmediateResults := by
  intro s rs rt imm a b
  have hb : ∀ n < 32, (zext imm).getLsbD n = b n := fun _ hn => getLsbD_zext imm hn
  rw [exec_andi, exec_ori, exec_xori, exec_lui]
  exact ⟨spells_encode (.andi rs rt imm),
    writeReg_written_bits fun n hn => BitVec.getLsbD_and.trans (congrArg (a n && ·) (hb n hn)),
    spells_encode (.ori rs rt imm),
    writeReg_written_bits fun n hn => BitVec.getLsbD_or.trans (congrArg (a n || ·) (hb n hn)),
    spells_encode (.xori rs rt imm),
    writeReg_written_bits fun n hn => BitVec.getLsbD_xor.trans (congrArg (a n ^^ ·) (hb n hn)),
    spells_encode (.lui rt imm), writeReg_written (upperImmediate_eq_ofNat imm)⟩

end Sys2Proof.Machine

/-! SUPPORT. Branches (spec/42_branch.md): the target counts words from the next instruction, and the conditions on the
signed value are the sign and zero tests. -/

namespace Sys2Proof.Machine

/-! ### The eight instructions, by their shared operation -/

section exec
variable (s : State) (rs rt : RegIdx) (imm : Half)

theorem exec_beq : exec (.beq rs rt imm) s = branchIf (s.reg rs == s.reg rt) imm s := rfl

theorem exec_bne : exec (.bne rs rt imm) s = branchIf (s.reg rs != s.reg rt) imm s := rfl

theorem exec_bgez : exec (.bgez rs imm) s = branchIf (decide (0 ≤ (s.reg rs).toInt)) imm s := rfl

theorem exec_bgtz : exec (.bgtz rs imm) s = branchIf (decide (0 < (s.reg rs).toInt)) imm s := rfl

theorem exec_blez : exec (.blez rs imm) s = branchIf (decide ((s.reg rs).toInt ≤ 0)) imm s := rfl

theorem exec_bltz : exec (.bltz rs imm) s = branchIf (decide ((s.reg rs).toInt < 0)) imm s := rfl

theorem exec_bgezal : exec (.bgezal rs imm) s = branchAndLinkIf (decide (0 ≤ (s.reg rs).toInt)) imm s := rfl

theorem exec_bltzal : exec (.bltzal rs imm) s = branchAndLinkIf (decide ((s.reg rs).toInt < 0)) imm s := rfl

end exec

/-! ### The target (R90) -/

/-- Shifting the sign-extended offset left by two multiplies its signed value by four, modulo 2^32. -/
theorem sext_shiftLeft_two (imm : Half) : sext imm <<< 2 = BitVec.ofInt 32 (4 * imm.toInt) := by
  have hfour : BitVec.twoPow 32 2 = BitVec.ofInt 32 4 := rfl
  rw [BitVec.shiftLeft_eq_mul_twoPow, hfour, BitVec.mul_comm, BitVec.ofInt_mul, ← toInt_sext, BitVec.ofInt_toInt]

theorem branchTarget_eq_wordsAhead (pc : Word) (imm : Half) : branchTarget pc imm = wordsAhead pc imm := by
  have hfour : (4#32 : Word) = BitVec.ofInt 32 4 := rfl
  rw [branchTarget, wordsAhead, sext_shiftLeft_two, BitVec.ofInt_add, BitVec.ofInt_add, ofInt_toNat, hfour]

/-! ### The conditions, by the sign bit -/

section conditions
variable (a : Word)

theorem toInt_neg_iff_msb : a.toInt < 0 ↔ a.msb = true := by
  rw [BitVec.msb_eq_toInt, decide_eq_true_iff]

theorem toInt_nonneg_iff_msb : 0 ≤ a.toInt ↔ a.msb = false := by
  rw [← not_lt, toInt_neg_iff_msb, Bool.not_eq_true]

theorem toInt_eq_zero_iff : a.toInt = 0 ↔ a = 0#32 := BitVec.toInt_inj (y := 0#32)

theorem toInt_pos_iff_msb : 0 < a.toInt ↔ a.msb = false ∧ a ≠ 0#32 := by
  rw [lt_iff_le_and_ne', toInt_nonneg_iff_msb, ne_eq, toInt_eq_zero_iff]

theorem toInt_nonpos_iff_msb : a.toInt ≤ 0 ↔ a.msb = true ∨ a = 0#32 := by
  rw [le_iff_lt_or_eq, toInt_neg_iff_msb, toInt_eq_zero_iff]

end conditions

/-! ### The whole effect -/

/-- The whole effect of an instruction that only goes to `target`. -/
theorem jumpTo_transferred (s : State) (target : Word) : Transferred s (s.jumpTo target) target where
  mem := jumpTo_memByte s target
  trap := jumpTo_trap s target
  params := jumpTo_params s target
  draws := jumpTo_draws s target
  reg := jumpTo_reg s target
  pc := jumpTo_pc s target
  hi := jumpTo_hi s target
  lo := jumpTo_lo s target

/-- The whole effect of an instruction that writes `link` to `x[r]` and goes to `target`. -/
theorem setReg_jumpTo_linked (s : State) (r : RegIdx) (link target : Word) :
    Linked s ((s.setReg r link).jumpTo target) r link target where
  mem := setReg_memByte s r link
  trap := setReg_trap s r link
  params := setReg_params s r link
  draws := setReg_draws s r link
  reg := setReg_reg s r link
  pc := jumpTo_pc _ target
  hi := setReg_hi s r link
  lo := setReg_lo s r link

section branch
variable {s : State} {imm : Half} {taken : Bool}

theorem branchIf_transferred {condition : Prop} [Decidable condition] (h : taken = true ↔ condition) :
    ∃ t, branchIf taken imm s = .next t ∧
      Transferred s t (if condition then wordsAhead s.pc imm else s.pc + 4#32) := by
  refine ⟨_, rfl, ?_⟩
  by_cases hc : condition
  · rw [if_pos hc, if_pos (h.mpr hc), ← branchTarget_eq_wordsAhead]
    exact jumpTo_transferred s _
  · rw [if_neg hc, if_neg (mt h.mp hc)]
    exact advance_transferred s

theorem branchAndLinkIf_linked (h : taken = true) :
    ∃ t, branchAndLinkIf taken imm s = .next t ∧ Linked s t .ra (s.pc + 4#32) (wordsAhead s.pc imm) := by
  refine ⟨_, rfl, ?_⟩
  rw [if_pos h, ← branchTarget_eq_wordsAhead]
  exact setReg_jumpTo_linked s .ra _ _

theorem branchAndLinkIf_transferred (h : ¬ taken = true) :
    ∃ t, branchAndLinkIf taken imm s = .next t ∧ Transferred s t (s.pc + 4#32) := by
  refine ⟨_, rfl, ?_⟩
  rw [if_neg h]
  exact advance_transferred s

end branch

/-- Settles O34: each condition of the model is the statement's test, and the target is the one counted in words. -/
theorem branchResults : Obligations.BranchResults := by
  intro s rs rt imm a taken next
  rw [exec_beq, exec_bne, exec_bgez, exec_bgtz, exec_blez, exec_bltz, ← ite_not (a = s.reg rt) taken next]
  exact ⟨spells_encode (.beq rs rt imm), branchIf_transferred beq_iff_eq,
    spells_encode (.bne rs rt imm), branchIf_transferred bne_iff_ne,
    spells_encode (.bgez rs imm), branchIf_transferred (decide_eq_true_iff.trans (toInt_nonneg_iff_msb a)),
    spells_encode (.bgtz rs imm), branchIf_transferred (decide_eq_true_iff.trans (toInt_pos_iff_msb a)),
    spells_encode (.blez rs imm), branchIf_transferred (decide_eq_true_iff.trans (toInt_nonpos_iff_msb a)),
    spells_encode (.bltz rs imm), branchIf_transferred (decide_eq_true_iff.trans (toInt_neg_iff_msb a))⟩

/-- Settles O35: the sign bit of the old `x[rs]` decides between the linked jump and the plain step to the next
instruction. -/
theorem branchAndLinkResults : Obligations.BranchAndLinkResults := by
  intro s rs imm taken next
  have hge : decide (0 ≤ (s.reg rs).toInt) = true ↔ (s.reg rs).msb = false :=
    decide_eq_true_iff.trans (toInt_nonneg_iff_msb _)
  have hlt : decide ((s.reg rs).toInt < 0) = true ↔ (s.reg rs).msb = true :=
    decide_eq_true_iff.trans (toInt_neg_iff_msb _)
  rw [exec_bgezal, exec_bltzal]
  exact ⟨spells_encode (.bgezal rs imm), fun h => branchAndLinkIf_linked (hge.mpr h),
    fun h => branchAndLinkIf_transferred (mt hge.mp (ne_false_of_eq_true h)),
    spells_encode (.bltzal rs imm), fun h => branchAndLinkIf_linked (hlt.mpr h),
    fun h => branchAndLinkIf_transferred (mt hlt.mp (ne_true_of_eq_false h))⟩

end Sys2Proof.Machine

/-! SUPPORT. The free values that an instruction draws (spec/00_scope.md 5.3, spec/43_muldiv.md R100, R101). -/

namespace Sys2Proof.Machine

/-- An effect leaves the count of drawn values, or it is that of a division by zero. -/
theorem Effect.draws_or_zeroDivisor {i : Instr} {s t : State} (h : Effect i s t) :
    t.draws = s.draws ∨ ∃ rs rt, (i = .div rs rt ∨ i = .divu rs rt) ∧ s.reg rt = 0#32 := by
  cases h with
  | wroteReg r v _ => exact .inl (setReg_draws s r v)
  | linked r target _ => exact .inl (setReg_draws s r _)
  | drewHiLo rs rt hdiv hzero => exact .inr ⟨rs, rt, hdiv, hzero⟩
  | wroteHiLo | fellThrough | jumped | stored | raised => exact .inl rfl

/-- Settles O14, from the effects. -/
theorem drawsOnlyForZeroDivisor : Obligations.DrawsOnlyForZeroDivisor := fun _ _ _ h hdraws =>
  (exec_effect h).draws_or_zeroDivisor.resolve_left hdraws

end Sys2Proof.Machine

/-! SUPPORT. Multiply, divide and the HIGH/LOW moves (spec/43_muldiv.md): the product is exact in 64 bits, and the
signed division is the one that truncates toward zero. -/

namespace Sys2Proof.Machine

/-! ### The eight instructions, by their shared operation -/

section exec
variable (s : State) (rs rt rd : RegIdx)

theorem exec_mfhi : exec (.mfhi rd) s = writeReg rd s.hi s := rfl

theorem exec_mflo : exec (.mflo rd) s = writeReg rd s.lo s := rfl

theorem exec_mthi : exec (.mthi rs) s = writeHiLo (s.reg rs) s.lo s := rfl

theorem exec_mtlo : exec (.mtlo rs) s = writeHiLo s.hi (s.reg rs) s := rfl

theorem exec_mult : exec (.mult rs rt) s =
    writeProduct (BitVec.ofInt 64 ((s.reg rs).toInt * (s.reg rt).toInt)) s := rfl

theorem exec_multu : exec (.multu rs rt) s =
    writeProduct (BitVec.ofNat 64 ((s.reg rs).toNat * (s.reg rt).toNat)) s := rfl

end exec

theorem toNat_eq_zero_iff (a : Word) : a.toNat = 0 ↔ a = 0#32 := BitVec.toNat_inj (y := 0#32)

section execDivision
variable {s : State} {rs rt : RegIdx}

theorem exec_div_of_zero (h : s.reg rt = 0#32) : exec (.div rs rt) s = drawHiLo s :=
  if_pos ((toInt_eq_zero_iff _).mpr h)

theorem exec_div_of_ne_zero (h : s.reg rt ≠ 0#32) : exec (.div rs rt) s =
    writeHiLo (BitVec.ofInt 32 (signedRemainder (s.reg rs).toInt (s.reg rt).toInt))
      (BitVec.ofInt 32 (signedQuotient (s.reg rs).toInt (s.reg rt).toInt)) s :=
  if_neg (mt (toInt_eq_zero_iff _).mp h)

theorem exec_divu_of_zero (h : s.reg rt = 0#32) : exec (.divu rs rt) s = drawHiLo s :=
  if_pos ((toNat_eq_zero_iff _).mpr h)

/-- With another divisor `divu` writes the remainder and the quotient of bit vectors. -/
theorem exec_divu_of_ne_zero (h : s.reg rt ≠ 0#32) :
    exec (.divu rs rt) s = writeHiLo (s.reg rs % s.reg rt) (s.reg rs / s.reg rt) s := by
  rw [BitVec.umod_def, BitVec.udiv_def]
  exact if_neg (mt (toNat_eq_zero_iff _).mp h)

end execDivision

/-! ### The whole effect -/

section effect
variable (s : State) (hi lo : Word)

theorem writeHiLo_written : ∃ t, writeHiLo hi lo s = .next t ∧ HiLoWritten s t hi lo :=
  ⟨_, rfl,
    { mem := withHiLo_memByte s hi lo, trap := rfl, params := rfl, draws := rfl
      reg := withHiLo_reg s hi lo, pc := rfl, hi := rfl, lo := rfl }⟩

theorem drawHiLo_drawn : ∃ t, drawHiLo s = .next t ∧ HiLoDrawn s t :=
  ⟨_, rfl,
    { lo := rfl, hi := rfl, draws := rfl, reg := fun _ => rfl, pc := rfl
      mem := fun _ => rfl, trap := rfl, params := rfl }⟩

/-- HI and LO hold the two halves of a product, so they have its value, however it is read. -/
theorem writeProduct_written {α : Type} {p : BitVec 64} (value : BitVec 64 → α) {v : α} (h : value p = v) :
    ∃ t hi lo, writeProduct p s = .next t ∧ HiLoWritten s t hi lo ∧ value (hi ++ lo) = v := by
  obtain ⟨t, hnext, hwritten⟩ := writeHiLo_written s (p.extractLsb' 32 32) (p.extractLsb' 0 32)
  have hjoin : p.extractLsb' 32 32 ++ p.extractLsb' 0 32 = p :=
    (BitVec.extractLsb'_append_extractLsb'_eq_extractLsb' rfl).trans BitVec.extractLsb'_eq_self
  exact ⟨t, _, _, hnext, hwritten, hjoin.symm ▸ h⟩

end effect

/-- Settles O39: the moves are one register write or one write of HI and LO. -/
theorem hiLoMoveResults : Obligations.HiLoMoveResults := fun s rs rd =>
  ⟨spells_encode (.mfhi rd), exec_mfhi s rd ▸ writeReg_written rfl,
    spells_encode (.mflo rd), exec_mflo s rd ▸ writeReg_written rfl,
    spells_encode (.mthi rs), exec_mthi s rs ▸ writeHiLo_written s _ _,
    spells_encode (.mtlo rs), exec_mtlo s rs ▸ writeHiLo_written s _ _⟩

/-! ### The product (R106, R107) -/

/-- The product of two signed words lies between -2^62 and 2^62. -/
theorem toInt_product (a b : Word) : (BitVec.ofInt 64 (a.toInt * b.toInt)).toInt = a.toInt * b.toInt := by
  have hlower : -2 ^ 62 ≤ a.toInt * b.toInt := BitVec.le_toInt_mul_toInt
  have hupper : a.toInt * b.toInt ≤ 2 ^ 62 := BitVec.toInt_mul_toInt_le
  exact BitVec.toInt_ofInt_eq_self (by decide) (by omega) (by omega)

/-- The product of two unsigned words is below 2^64. -/
theorem toNat_product (a b : Word) : (BitVec.ofNat 64 (a.toNat * b.toNat)).toNat = a.toNat * b.toNat := by
  have hbound : a.toNat * b.toNat < 2 ^ 32 * 2 ^ 32 := Nat.mul_lt_mul'' a.isLt b.isLt
  exact (BitVec.toNat_ofNat _ _).trans (Nat.mod_eq_of_lt hbound)

/-- Settles O36: the product fits in 64 bits, and HI and LO are its halves. -/
theorem multiplyResults : Obligations.MultiplyResults := fun s rs rt =>
  ⟨spells_encode (.mult rs rt),
    exec_mult s rs rt ▸ writeProduct_written s BitVec.toInt (toInt_product (s.reg rs) (s.reg rt)),
    spells_encode (.multu rs rt),
    exec_multu s rs rt ▸ writeProduct_written s BitVec.toNat (toNat_product (s.reg rs) (s.reg rt))⟩

/-! ### Unsigned division (R101) -/

/-- Settles O38: the division of bit vectors is that of the unsigned values. -/
theorem divideUnsignedResults : Obligations.DivideUnsignedResults := by
  intro s rs rt
  refine ⟨spells_encode (.divu rs rt), fun hzero => exec_divu_of_zero hzero ▸ drawHiLo_drawn s, fun hne => ?_⟩
  obtain ⟨t, hnext, hwritten⟩ := writeHiLo_written s (s.reg rs % s.reg rt) (s.reg rs / s.reg rt)
  have hpos : 0 < (s.reg rt).toNat := Nat.pos_of_ne_zero (mt (toNat_eq_zero_iff _).mp hne)
  refine ⟨t, _, _, (exec_divu_of_ne_zero hne).trans hnext, hwritten, ?_, ?_⟩
  · rw [BitVec.toNat_udiv, BitVec.toNat_umod]
    exact (Nat.div_add_mod' _ _).symm
  · rw [BitVec.toNat_umod]
    exact Nat.mod_lt _ hpos

/-! ### Signed division (R100) -/

/-- The quotient is the library's, which truncates toward zero. -/
theorem signedQuotient_eq_tdiv (n d : Int) : signedQuotient n d = n.tdiv d := by
  rw [← Int.sign_mul_natAbs (n.tdiv d), Int.sign_tdiv, Int.natAbs_tdiv, signedQuotient]
  split
  next hlt => rw [Nat.div_eq_of_lt hlt, Int.zero_mul]; exact Int.mul_zero _
  next => rfl

theorem signedRemainder_eq_tmod (n d : Int) : signedRemainder n d = n.tmod d := by
  rw [signedRemainder, signedQuotient_eq_tdiv, Int.tmod_def, Int.mul_comm]

section division
variable (n d : Int)

theorem eq_signedQuotient_mul_add_signedRemainder : n = signedQuotient n d * d + signedRemainder n d :=
  (add_sub_cancel _ _).symm

theorem natAbs_signedRemainder_lt (hd : d ≠ 0) : (signedRemainder n d).natAbs < d.natAbs := by
  rw [signedRemainder_eq_tmod, Int.natAbs_tmod]
  exact Nat.mod_lt _ (Int.natAbs_pos.mpr hd)

theorem signedRemainder_eq_zero_or_sign : signedRemainder n d = 0 ∨ (signedRemainder n d).sign = n.sign := by
  rw [signedRemainder_eq_tmod]
  by_cases hdvd : d ∣ n
  · exact .inl (Int.tmod_eq_zero_of_dvd hdvd)
  · exact .inr ((Int.sign_tmod n d).trans (if_neg hdvd))

end division

/-- D18: the quotient 2^31 of -2^31 by -1 wraps. -/
theorem signedQuotient_wraps :
    BitVec.ofInt 32 (signedQuotient (0x80000000#32).toInt (0xFFFFFFFF#32).toInt) = 0x80000000#32 := by decide

theorem signedRemainder_wraps :
    BitVec.ofInt 32 (signedRemainder (0x80000000#32).toInt (0xFFFFFFFF#32).toInt) = 0#32 := by decide

/-- Settles O37: the model's quotient and remainder obey the sign rules, and -2^31 by -1 is evaluated. -/
theorem divideResults : Obligations.DivideResults := by
  intro s rs rt n d
  refine ⟨spells_encode (.div rs rt), fun hzero => exec_div_of_zero hzero ▸ drawHiLo_drawn s, fun hne => ?_⟩
  obtain ⟨t, hnext, hwritten⟩ :=
    writeHiLo_written s (BitVec.ofInt 32 (signedRemainder n d)) (BitVec.ofInt 32 (signedQuotient n d))
  refine ⟨t, _, _, (exec_div_of_ne_zero hne).trans hnext, hwritten, eq_signedQuotient_mul_add_signedRemainder n d,
    natAbs_signedRemainder_lt n d (mt (toInt_eq_zero_iff _).mp hne), signedRemainder_eq_zero_or_sign n d,
    fun hn hd => ?_⟩
  rw [hwritten.lo, hwritten.hi]
  simp only [n, d, hn, hd]
  exact ⟨signedQuotient_wraps, signedRemainder_wraps⟩

end Sys2Proof.Machine

/-! SUPPORT. Jumps (spec/44_jump.md): the target of `j` and `jal` as a number, and how the step after a jump through a
register meets a bad target. -/

namespace Sys2Proof.Machine

/-! ### The four instructions -/

section exec
variable (s : State) (rs : RegIdx) (target : BitVec 26)

theorem exec_j : exec (.j target) s = .next (s.jumpTo (jumpTarget s.pc target)) := rfl

theorem exec_jal : exec (.jal target) s =
    .next ((s.setReg .ra (s.pc + 4#32)).jumpTo (jumpTarget s.pc target)) := rfl

theorem exec_jr : exec (.jr rs) s = .next (s.jumpTo (s.reg rs)) := rfl

end exec

section execJlr
variable {s : State} {rs rd : RegIdx}

theorem jlrOperandsDefined_iff : jlrOperandsDefined rs rd = true ↔ rd ≠ rs ∨ rd = 0#5 := by
  rw [jlrOperandsDefined, Bool.or_eq_true, bne_iff_ne, beq_iff_eq]

theorem exec_jlr_of_defined (h : rd ≠ rs ∨ rd = 0#5) :
    exec (.jlr rs rd) s = .next ((s.setReg rd (s.pc + 4#32)).jumpTo (s.reg rs)) :=
  if_pos (jlrOperandsDefined_iff.mpr h)

/-- D21: one register named twice, other than register 0, is refused. -/
theorem exec_jlr_of_same (hsame : rd = rs) (hne : rd ≠ 0#5) :
    exec (.jlr rs rd) s = .refused (.jlrSameRegister rd) :=
  if_neg fun h => (jlrOperandsDefined_iff.mp h).elim (absurd hsame) hne

end execJlr

/-! ### The target of `j` and `jal` (R110, D4) -/

theorem toNat_append_eq_add {n m : Nat} (x : BitVec n) (y : BitVec m) :
    (x ++ y).toNat = x.toNat * 2 ^ m + y.toNat := by
  rw [BitVec.toNat_append, ← Nat.shiftLeft_add_eq_or_of_lt y.isLt, Nat.shiftLeft_eq]

/-- The top four bits of a word are its number of 2^28-byte regions. -/
theorem toNat_region (a : Word) : (a.extractLsb' 28 4).toNat = a.toNat / 2 ^ 28 := by
  have hlt : a.toNat / 2 ^ 28 < 2 ^ 4 := Nat.div_lt_of_lt_mul a.isLt
  rw [BitVec.extractLsb'_toNat, Nat.shiftRight_eq_div_pow, Nat.mod_eq_of_lt hlt]

theorem jumpTarget_toNat (pc : Word) (target : BitVec 26) :
    (jumpTarget pc target).toNat = (pc + 4#32).toNat / 2 ^ 28 * 2 ^ 28 + target.toNat * 4 := by
  rw [jumpTarget, toNat_append_eq_add, toNat_append_eq_add, toNat_region, BitVec.toNat_ofNat]
  ring

/-- Settles O40: the concatenated target is the region's base plus four times the field. -/
theorem jumpResults : Obligations.JumpResults := by
  intro s target dest
  have hdest : jumpTarget s.pc target = dest := eq_ofNat_of_toNat (jumpTarget_toNat s.pc target)
  rw [exec_j, exec_jal, hdest]
  exact ⟨spells_encode (.j target), ⟨_, rfl, jumpTo_transferred s dest⟩,
    spells_encode (.jal target), _, rfl, setReg_jumpTo_linked s .ra _ dest⟩

/-! ### A bad target, at the next step (R15, R112, R113) -/

section nextStep
variable {t : State} {target : Word}

theorem step_of_misaligned_target (hpc : t.pc = target) (htrap : t.trap = none) (hmis : target.toNat % 4 ≠ 0) :
    ∃ u, step t = .next u ∧ Trapped t u ⟨.addressError .fetch, target, some target, none⟩ := by
  subst hpc
  exact (fetchChecksInOrder t htrap).1 hmis

theorem step_of_unfetchable_target (hpc : t.pc = target) (htrap : t.trap = none) (haligned : target.toNat % 4 = 0)
    (hnot : ¬ Fetchable t) : ∃ r, step t = .refused r := by
  subst hpc
  obtain ⟨_, _, ⟨_, hstep⟩ | ⟨_, hstep⟩⟩ := (fetchChecksInOrder t htrap).2 haligned hnot
  · exact ⟨_, hstep⟩
  · exact ⟨_, hstep⟩

end nextStep

/-- Settles O41: the jump keeps the trap record, so the next step checks the target. -/
theorem jumpRegisterResults : Obligations.JumpRegisterResults := by
  intro s rs
  have heffect := jumpTo_transferred s (s.reg rs)
  exact ⟨spells_encode (.jr rs), _, exec_jr s rs, heffect,
    fun htrap => step_of_misaligned_target heffect.pc (heffect.trap.trans htrap),
    fun htrap => step_of_unfetchable_target heffect.pc (heffect.trap.trans htrap)⟩

/-- Settles O42: the link is written after the target is read, and the next step checks the target as for `jr`. -/
theorem jumpAndLinkRegisterResults : Obligations.JumpAndLinkRegisterResults := by
  intro s rs rd
  have heffect := setReg_jumpTo_linked s rd (s.pc + 4#32) (s.reg rs)
  exact ⟨spells_encode (.jlr rs rd),
    fun hdefined => ⟨_, exec_jlr_of_defined hdefined, heffect,
      fun htrap => step_of_misaligned_target heffect.pc (heffect.trap.trans htrap),
      fun htrap => step_of_unfetchable_target heffect.pc (heffect.trap.trans htrap)⟩,
    exec_jlr_of_same⟩

end Sys2Proof.Machine

/-! SUPPORT. The bytes of a word by significance (spec/45_load.md R128): where each lies in memory, and which bytes the
two halves of an unaligned access touch. -/

namespace Sys2Proof.Machine

/-! ### The aligned word of an address -/

theorem wordBase_eq_shift (ea : Word) : wordBase ea = ea >>> 2 <<< 2 := by
  rw [BitVec.shiftLeft_ushiftRight]
  rfl

theorem toNat_wordBase (ea : Word) : (wordBase ea).toNat = ea.toNat - ea.toNat % 4 := by
  have hlt := ea.isLt
  rw [wordBase_eq_shift, BitVec.toNat_shiftLeft, BitVec.toNat_ushiftRight, Nat.shiftLeft_eq,
    Nat.shiftRight_eq_div_pow]
  omega

theorem significance_lt (e : Endian) (ea : Word) : significance e ea < 4 := by
  cases e <;> simp only [significance] <;> omega

/-- The byte that `ea` addresses is the one of its significance. -/
theorem significanceAddress_significance (e : Endian) (ea : Word) :
    significanceAddress e (wordBase ea) (significance e ea) = ea := by
  have hbase := toNat_wordBase ea
  cases e <;> simp only [significanceAddress, significance] <;> bv_omega

/-- Addresses by significance run in parallel: two words that share a byte share the bytes next to it. -/
theorem significanceAddress_parallel {e : Endian} {a b : Word} {k i m j : Nat}
    (h : significanceAddress e a k = significanceAddress e b i) (hoffset : m + i = j + k)
    (hk : k < 4) (hi : i < 4) (hm : m < 4) (hj : j < 4) :
    significanceAddress e a m = significanceAddress e b j := by
  cases e with
  | little =>
    have hsum := congrArg (BitVec.ofNat 32) hoffset
    rw [BitVec.ofNat_add, BitVec.ofNat_add] at hsum
    simp only [significanceAddress] at h ⊢
    linear_combination h + hsum
  | big =>
    have hsum := congrArg (BitVec.ofNat 32) (show 3 - m + (3 - i) = 3 - j + (3 - k) by omega)
    rw [BitVec.ofNat_add, BitVec.ofNat_add] at hsum
    simp only [significanceAddress] at h ⊢
    linear_combination h + hsum

/-! ### The bytes of a word read (R31) -/

theorem byteOf_joinWord_little (b0 b1 b2 b3 : Byte) : byteOf (joinWord .little b0 b1 b2 b3) 0 = b0 ∧
    byteOf (joinWord .little b0 b1 b2 b3) 1 = b1 ∧ byteOf (joinWord .little b0 b1 b2 b3) 2 = b2 ∧
    byteOf (joinWord .little b0 b1 b2 b3) 3 = b3 := by
  unfold byteOf joinWord
  simp only [BitVec.extractLsb'_append_eq_ite]
  simp

theorem byteOf_memWord (s : State) (a : Word) {j : Nat} (hj : j < 4) :
    byteOf (s.memWord a) j = s.memByte (significanceAddress s.params.endian a j) := by
  obtain ⟨h0, h1, h2, h3⟩ := byteOf_joinWord_little (s.memByte a) (s.memByte (a + 1#32)) (s.memByte (a + 2#32))
    (s.memByte (a + 3#32))
  obtain ⟨g0, g1, g2, g3⟩ := byteOf_joinWord_little (s.memByte (a + 3#32)) (s.memByte (a + 2#32))
    (s.memByte (a + 1#32)) (s.memByte a)
  rw [State.memWord]
  cases s.params.endian
  case little => interval_cases j <;> simp [significanceAddress, *]
  case big => rw [joinWord_big]; interval_cases j <;> simp [significanceAddress, *]

theorem eq_of_byteOf_eq {v w : Word} (h : ∀ j < 4, byteOf v j = byteOf w j) : v = w := by
  rw [← joinWord_storedByte .little v, ← joinWord_storedByte .little w]
  simp only [storedByte, h 0 (by decide), h 1 (by decide), h 2 (by decide), h 3 (by decide)]

/-- Settles O28: the significance is read off the definition, and its address is `ea`. -/
theorem significanceOfAddressedByte : Obligations.SignificanceOfAddressedByte := by
  intro s ea
  refine ⟨fun he => by rw [he]; rfl, fun he => by rw [he]; rfl, toNat_wordBase ea, ?_⟩
  rw [byteOf_memWord s _ (significance_lt _ ea), significanceAddress_significance]

/-! ### The bytes of an unaligned access (R126, R127) -/

/-- The same addresses as the `n` from `a` up, from the last one down. -/
theorem map_range_eq_reverse {f : Nat → Word} {a : Word} {n : Nat}
    (h : ∀ i < n, f i = a + BitVec.ofNat 32 (n - 1 - i)) : (List.range n).map f = (addressRange a n).reverse := by
  refine List.ext_getElem (by simp [addressRange]) fun i hi _ => ?_
  have hlt : i < n := by simpa using hi
  simp [addressRange, h i hlt]

theorem mem_leftAddresses (e : Endian) (ea p : Word) :
    p ∈ leftAddresses e ea ↔ p ∈ addressRange (leftStart e ea) (significance e ea + 1) := by
  cases e with
  | little => rfl
  | big =>
    have haddressed := significanceAddress_significance .big ea
    have hreverse : leftAddresses .big ea = (addressRange ea (significance .big ea + 1)).reverse :=
      map_range_eq_reverse fun m hm => by
        simp only [significanceAddress, significance] at haddressed hm ⊢
        bv_omega
    rw [hreverse, List.mem_reverse, leftStart]

theorem mem_rightAddresses (e : Endian) (ea p : Word) :
    p ∈ rightAddresses e ea ↔ p ∈ addressRange (rightStart e ea) (4 - significance e ea) := by
  have haddressed := significanceAddress_significance e ea
  have hk := significance_lt e ea
  cases e with
  | little =>
    have hsame : rightAddresses .little ea = addressRange ea (4 - significance .little ea) :=
      List.map_congr_left fun i hi => by
        rw [significanceAddress, BitVec.ofNat_add, ← BitVec.add_assoc]
        exact congrArg (· + _) haddressed
    rw [hsame, rightStart]
  | big =>
    have hreverse : rightAddresses .big ea = (addressRange (wordBase ea) (4 - significance .big ea)).reverse :=
      map_range_eq_reverse fun i hi => by
        rw [significanceAddress]
        congr 2
        omega
    rw [hreverse, List.mem_reverse, rightStart]

end Sys2Proof.Machine

/-! SUPPORT. Loads (spec/45_load.md): a load completes as one register write or is refused for a byte of its own that
does not exist, and what `lwl` and `lwr` merge, byte by byte. -/

namespace Sys2Proof.Machine

/-! ### The shared operation (R36, R39) -/

section loadReg
variable {s : State} {rt : RegIdx} {addrs : List Word} {a v : Word} {n : Nat}

theorem bytesValid_iff : BytesValid s a n ↔ ∀ p ∈ addressRange a n, s.validAddr p = true := by
  simp [BytesValid, addressRange]

theorem bytesValid_one : BytesValid s a 1 ↔ s.validAddr a = true := by simp [BytesValid]

theorem loadReg_written {w : Word} (h : ∀ p ∈ addrs, s.validAddr p = true) (hv : v = w) :
    ∃ t, loadReg rt addrs v s = .next t ∧ RegWritten s t rt w :=
  ⟨_, loadReg_valid h, hv ▸ setReg_advance_written s rt v⟩

/-- The byte that a refused load names does not depend on the register or the value. -/
theorem loadReg_refused (h : ¬ ∀ p ∈ addrs, s.validAddr p = true) :
    ∃ p ∈ addrs, s.validAddr p = false ∧ ∀ rt v, loadReg rt addrs v s = .refused (.outsideMemory .load p) := by
  obtain ⟨r, hr⟩ := Option.ne_none_iff_exists'.mp (mt refuseAccess_eq_none.mp h)
  obtain ⟨p, hp, hinvalid, rfl⟩ := refuseAccess_eq_some hr
  exact ⟨p, hp, hinvalid, fun rt v => by rw [loadReg, hr]⟩

theorem loadReg_addressRange_written {w : Word} (h : BytesValid s a n) (hv : v = w) :
    ∃ t, loadReg rt (addressRange a n) v s = .next t ∧ RegWritten s t rt w :=
  loadReg_written (bytesValid_iff.mp h) hv

theorem loadReg_addressRange_refused (h : ¬ BytesValid s a n) :
    ∃ i < n, s.validAddr (a + BitVec.ofNat 32 i) = false ∧
      ∀ rt v, loadReg rt (addressRange a n) v s = .refused (.outsideMemory .load (a + BitVec.ofNat 32 i)) := by
  obtain ⟨p, hp, hinvalid, hrefused⟩ := loadReg_refused (mt bytesValid_iff.mpr h)
  obtain ⟨i, hi, rfl⟩ := mem_addressRange.mp hp
  exact ⟨i, hi, hinvalid, hrefused⟩

theorem raise_trapped (e : Exception) (s : State) :
    ∃ t, raise e s = .next t ∧ Trapped s t (e.record s.pc) := ⟨_, rfl, takeException_trapped e s⟩

end loadReg

/-! ### The seven loads, by their shared operation -/

section exec
variable (s : State) (rs rt : RegIdx) (imm : Half)

theorem exec_lb : exec (.lb rs rt imm) s =
    loadReg rt (addressRange (effectiveAddress s rs imm) 1)
      ((s.memByte (effectiveAddress s rs imm)).signExtend 32) s := rfl

theorem exec_lbu : exec (.lbu rs rt imm) s =
    loadReg rt (addressRange (effectiveAddress s rs imm) 1)
      ((s.memByte (effectiveAddress s rs imm)).zeroExtend 32) s := rfl

theorem exec_lh : exec (.lh rs rt imm) s = loadHalf (·.signExtend 32) rs rt imm s := rfl

theorem exec_lhu : exec (.lhu rs rt imm) s = loadHalf (·.zeroExtend 32) rs rt imm s := rfl

theorem exec_lwl : exec (.lwl rs rt imm) s =
    loadReg rt (leftAddresses s.params.endian (effectiveAddress s rs imm))
      (mergeLeft (significance s.params.endian (effectiveAddress s rs imm))
        (s.memWord (wordBase (effectiveAddress s rs imm))) (s.reg rt)) s := rfl

theorem exec_lwr : exec (.lwr rs rt imm) s =
    loadReg rt (rightAddresses s.params.endian (effectiveAddress s rs imm))
      (mergeRight (significance s.params.endian (effectiveAddress s rs imm))
        (s.memWord (wordBase (effectiveAddress s rs imm))) (s.reg rt)) s := rfl

end exec

section aligned
variable {s : State} {rs rt : RegIdx} {imm : Half}

theorem loadHalf_of_odd (extend : Half → Word) (h : (effectiveAddress s rs imm).toNat % 2 = 1) :
    loadHalf extend rs rt imm s = raise (.addressError .load (effectiveAddress s rs imm)) s :=
  if_neg (by simp [halfAligned, h])

theorem loadHalf_of_even (extend : Half → Word) (h : (effectiveAddress s rs imm).toNat % 2 = 0) :
    loadHalf extend rs rt imm s =
      loadReg rt (addressRange (effectiveAddress s rs imm) 2) (extend (s.memHalf (effectiveAddress s rs imm))) s :=
  if_pos (beq_iff_eq.mpr h)

theorem exec_lw_of_misaligned (h : (effectiveAddress s rs imm).toNat % 4 ≠ 0) :
    exec (.lw rs rt imm) s = raise (.addressError .load (effectiveAddress s rs imm)) s :=
  if_neg (mt wordAligned_iff.mp h)

theorem exec_lw_of_aligned (h : (effectiveAddress s rs imm).toNat % 4 = 0) :
    exec (.lw rs rt imm) s =
      loadReg rt (addressRange (effectiveAddress s rs imm) 4) (s.memWord (effectiveAddress s rs imm)) s :=
  if_pos (wordAligned_iff.mpr h)

end aligned

/-! ### Bytes, half words and words -/

theorem zeroExtend_eq_ofNat {n : Nat} (x : BitVec n) : x.zeroExtend 32 = BitVec.ofNat 32 x.toNat :=
  (BitVec.ofNat_toNat 32 x).symm

/-- Settles O43: a byte load is an access of one byte. -/
theorem loadByteResults : Obligations.LoadByteResults := by
  intro s rs rt imm ea
  refine ⟨spells_encode (.lb rs rt imm), spells_encode (.lbu rs rt imm), fun hvalid => ?_, fun hinvalid => ?_⟩
  · have hbyte := bytesValid_one.mpr hvalid
    exact ⟨exec_lb s rs rt imm ▸ loadReg_addressRange_written hbyte rfl,
      exec_lbu s rs rt imm ▸ loadReg_addressRange_written hbyte (zeroExtend_eq_ofNat _)⟩
  · have hbyte : ¬ BytesValid s ea 1 := by simp [bytesValid_one, hinvalid]
    obtain ⟨i, hi, -, hrefused⟩ := loadReg_addressRange_refused hbyte
    obtain rfl : i = 0 := by omega
    rw [BitVec.add_zero] at hrefused
    exact ⟨(exec_lb s rs rt imm).trans (hrefused _ _), (exec_lbu s rs rt imm).trans (hrefused _ _)⟩

/-- Settles O44: the alignment test comes before memory is looked at. -/
theorem loadHalfResults : Obligations.LoadHalfResults := by
  intro s rs rt imm ea
  rw [exec_lh, exec_lhu]
  refine ⟨spells_encode (.lh rs rt imm), spells_encode (.lhu rs rt imm), fun hodd => ?_, fun heven hvalid => ?_,
    fun heven hinvalid => ?_⟩
  · rw [loadHalf_of_odd _ hodd, loadHalf_of_odd _ hodd]
    exact ⟨raise_trapped _ s, raise_trapped _ s⟩
  · rw [loadHalf_of_even _ heven, loadHalf_of_even _ heven]
    exact ⟨loadReg_addressRange_written hvalid rfl, loadReg_addressRange_written hvalid (zeroExtend_eq_ofNat _)⟩
  · rw [loadHalf_of_even _ heven, loadHalf_of_even _ heven]
    obtain ⟨i, hi, hbyte, hrefused⟩ := loadReg_addressRange_refused hinvalid
    exact ⟨i, hi, hbyte, hrefused _ _, hrefused _ _⟩

/-- Settles O45: the alignment test comes before memory is looked at. -/
theorem loadWordResults : Obligations.LoadWordResults := by
  intro s rs rt imm ea
  refine ⟨spells_encode (.lw rs rt imm), fun hmis => ?_, fun haligned hvalid => ?_, fun haligned hinvalid => ?_⟩
  · rw [exec_lw_of_misaligned hmis]
    exact raise_trapped _ s
  · rw [exec_lw_of_aligned haligned]
    exact loadReg_addressRange_written hvalid rfl
  · rw [exec_lw_of_aligned haligned]
    obtain ⟨i, hi, hbyte, hrefused⟩ := loadReg_addressRange_refused hinvalid
    exact ⟨i, hi, hbyte, hrefused _ _⟩

/-! ### What `lwl` and `lwr` merge (R126, R127) -/

theorem getLsbD_byteOf (v : Word) (j : Nat) {b : Nat} (hb : b < 8) :
    (byteOf v j).getLsbD b = v.getLsbD (8 * j + b) := by
  simp [byteOf, hb]

/-- The mask of the low `m` bits. -/
theorem getLsbD_lowMask {m : Nat} (hm : m < 32) (n : Nat) : (1#32 <<< m - 1#32).getLsbD n = decide (n < m) := by
  have hpow : 2 ^ m < 2 ^ 32 := Nat.pow_lt_pow_right (by decide) hm
  have hpos : 0 < 2 ^ m := Nat.two_pow_pos m
  have hvalue : (1#32 <<< m - 1#32).toNat = 2 ^ m - 1 := by
    rw [BitVec.toNat_sub, BitVec.toNat_shiftLeft, BitVec.toNat_ofNat, Nat.shiftLeft_eq]
    omega
  rw [BitVec.getLsbD, hvalue, Nat.testBit_two_pow_sub_one]

section merge
variable (k : Nat) (word reg : Word) {n j : Nat}

theorem getLsbD_mergeLeft (hn : n < 32) : (mergeLeft k word reg).getLsbD n =
    if n < 8 * (3 - k) then reg.getLsbD n else word.getLsbD (n - 8 * (3 - k)) := by
  rw [mergeLeft, BitVec.getLsbD_or, BitVec.getLsbD_and, BitVec.getLsbD_shiftLeft, getLsbD_lowMask (by omega)]
  split
  next hkept => simp [hkept]
  next hloaded => simp [hloaded, hn]

theorem getLsbD_mergeRight (hn : n < 32) : (mergeRight k word reg).getLsbD n =
    if 8 * k + n < 32 then word.getLsbD (8 * k + n) else reg.getLsbD n := by
  have hones : (0xFFFFFFFF#32).getLsbD (8 * k + n) = decide (8 * k + n < 32) := BitVec.getLsbD_allOnes
  rw [mergeRight, BitVec.getLsbD_or, BitVec.getLsbD_and, BitVec.getLsbD_not, BitVec.getLsbD_ushiftRight,
    BitVec.getLsbD_ushiftRight, hones]
  split
  next hloaded => simp [hloaded]
  next hkept => simp [hkept, hn, BitVec.getLsbD_of_ge word (8 * k + n) (by omega)]

theorem byteOf_mergeLeft (hj : j < 4) :
    byteOf (mergeLeft k word reg) j = if j < 3 - k then byteOf reg j else byteOf word (j - (3 - k)) := by
  refine BitVec.eq_of_getLsbD_eq fun b hb => ?_
  have hlow : 8 * j + b < 8 * (3 - k) ↔ j < 3 - k := by omega
  rw [getLsbD_byteOf _ _ hb, getLsbD_mergeLeft _ _ _ (by omega), if_congr hlow rfl rfl]
  split
  next => rw [getLsbD_byteOf _ _ hb]
  next => rw [getLsbD_byteOf _ _ hb, show 8 * j + b - 8 * (3 - k) = 8 * (j - (3 - k)) + b by omega]

theorem byteOf_mergeRight (hj : j < 4) :
    byteOf (mergeRight k word reg) j = if j < 4 - k then byteOf word (j + k) else byteOf reg j := by
  refine BitVec.eq_of_getLsbD_eq fun b hb => ?_
  have hlow : 8 * k + (8 * j + b) < 32 ↔ j < 4 - k := by omega
  rw [getLsbD_byteOf _ _ hb, getLsbD_mergeRight _ _ _ (by omega), if_congr hlow rfl rfl]
  split
  next => rw [getLsbD_byteOf _ _ hb, show 8 * k + (8 * j + b) = 8 * (j + k) + b by omega]
  next => rw [getLsbD_byteOf _ _ hb]

end merge

section unaligned
variable {s : State} {ea : Word}

theorem bytesValid_leftStart : BytesValid s (leftStart s.params.endian ea) (significance s.params.endian ea + 1) ↔
    ∀ p ∈ leftAddresses s.params.endian ea, s.validAddr p = true := by
  simp only [bytesValid_iff, mem_leftAddresses]

theorem bytesValid_rightStart : BytesValid s (rightStart s.params.endian ea) (4 - significance s.params.endian ea) ↔
    ∀ p ∈ rightAddresses s.params.endian ea, s.validAddr p = true := by
  simp only [bytesValid_iff, mem_rightAddresses]

end unaligned

/-- Settles O46: the addresses of the bytes are those from `leftStart` up, and the merge is read off byte by byte. -/
theorem loadWordLeftResults : Obligations.LoadWordLeftResults := by
  intro s rs rt imm ea k
  rw [exec_lwl, bytesValid_leftStart]
  refine ⟨spells_encode (.lwl rs rt imm), fun hvalid => ?_, fun hinvalid => ?_⟩
  · obtain ⟨t, hnext, hwritten⟩ := loadReg_written hvalid rfl
    exact ⟨t, _, hnext, hwritten, fun j hj => byteOf_mergeLeft _ _ _ hj⟩
  · obtain ⟨p, -, hbyte, hrefused⟩ := loadReg_refused hinvalid
    exact ⟨p, hbyte, hrefused _ _⟩

/-- Settles O47: the addresses of the bytes are those from `rightStart` up, and the merge is read off byte by byte. -/
theorem loadWordRightResults : Obligations.LoadWordRightResults := by
  intro s rs rt imm ea k
  rw [exec_lwr, bytesValid_rightStart]
  refine ⟨spells_encode (.lwr rs rt imm), fun hvalid => ?_, fun hinvalid => ?_⟩
  · obtain ⟨t, hnext, hwritten⟩ := loadReg_written hvalid rfl
    exact ⟨t, _, hnext, hwritten, fun j hj => byteOf_mergeRight _ _ _ hj⟩
  · obtain ⟨p, -, hbyte, hrefused⟩ := loadReg_refused hinvalid
    exact ⟨p, hbyte, hrefused _ _⟩

end Sys2Proof.Machine

/-! SUPPORT. `lwl` and `lwr` together load the word at any address (spec/45_load.md R126, corner case 4): each fills the
bytes of the word that lie in its own aligned word, and between them they fill all four. -/

namespace Sys2Proof.Machine

/-! ### The bytes of the word at `a` from its ends -/

section ends
variable (e : Endian) (a : Word) {m i j : Nat}

/-- From the end of significance `i` of the word at `a`, the aligned word of that end runs through the same bytes. -/
theorem significanceAddress_wordBase_end (hi : i < 4) (hm : m < 4) (hj : j < 4)
    (hoffset : m + i = j + significance e (significanceAddress e a i)) :
    significanceAddress e (wordBase (significanceAddress e a i)) m = significanceAddress e a j :=
  significanceAddress_parallel (significanceAddress_significance e _) hoffset (significance_lt e _) hi hm hj

theorem mem_leftAddresses_end {p : Word} (hp : p ∈ leftAddresses e (significanceAddress e a 3)) :
    ∃ j < 4, p = significanceAddress e a j := by
  have hk := significance_lt e (significanceAddress e a 3)
  obtain ⟨m, hm, rfl⟩ := List.mem_map.mp hp
  have hle := List.mem_range.mp hm
  exact ⟨m + 3 - significance e (significanceAddress e a 3), by omega,
    significanceAddress_wordBase_end e a (by omega) (by omega) (by omega) (by omega)⟩

theorem mem_rightAddresses_end {p : Word} (hp : p ∈ rightAddresses e (significanceAddress e a 0)) :
    ∃ j < 4, p = significanceAddress e a j := by
  obtain ⟨m, hm, rfl⟩ := List.mem_map.mp hp
  have hlt := List.mem_range.mp hm
  exact ⟨m, by omega, significanceAddress_wordBase_end e a (by omega) (by omega) (by omega) (by omega)⟩

/-- The two ends of a word leave no byte between their aligned words. -/
theorem significance_ends :
    significance e (significanceAddress e a 0) ≤ significance e (significanceAddress e a 3) + 1 := by
  cases e <;> simp only [significance, significanceAddress] <;> bv_omega

theorem bytesValid_significance {s : State} (h : BytesValid s a 4) (hj : j < 4) :
    s.validAddr (significanceAddress e a j) = true := by
  cases e with
  | little => exact h j hj
  | big => exact h (3 - j) (by omega)

end ends

/-! ### Filling some bytes of a register -/

/-- The instruction completes, and its whole effect is that the bytes of `x[rt]` whose significance is in `part` become
those of `w`. -/
def FillsBytes (i : Instr) (s : State) (rt : RegIdx) (w : Word) (part : Nat → Prop) : Prop :=
  ∃ t v, exec i s = .next t ∧ RegWritten s t rt v ∧
    ∀ j < 4, (part j → byteOf v j = byteOf w j) ∧ (¬ part j → byteOf v j = byteOf (s.reg rt) j)

section fills
variable {s : State} {rs rt : RegIdx} {imm : Half} {a : Word}

theorem lwl_fillsBytes (h : BytesValid s a 4)
    (hea : effectiveAddress s rs imm = significanceAddress s.params.endian a 3) :
    FillsBytes (.lwl rs rt imm) s rt (s.memWord a)
      (3 - significance s.params.endian (significanceAddress s.params.endian a 3) ≤ ·) := by
  have hk := significance_lt s.params.endian (significanceAddress s.params.endian a 3)
  have hvalid : ∀ p ∈ leftAddresses s.params.endian (significanceAddress s.params.endian a 3),
      s.validAddr p = true := fun p hp => by
    obtain ⟨j, hj, rfl⟩ := mem_leftAddresses_end s.params.endian a hp
    exact bytesValid_significance s.params.endian a h hj
  obtain ⟨t, hnext, hwritten⟩ := loadReg_written hvalid rfl
  refine ⟨t, _, (exec_lwl s rs rt imm).trans (hea ▸ hnext), hwritten, fun j hj => ?_⟩
  rw [byteOf_mergeLeft _ _ _ hj]
  refine ⟨fun hpart => ?_, fun hpart => if_pos (not_le.mp hpart)⟩
  rw [if_neg (not_lt.mpr hpart), byteOf_memWord s _ (by omega), byteOf_memWord s a hj,
    significanceAddress_wordBase_end s.params.endian a (by omega) (by omega) hj (by omega)]

theorem lwr_fillsBytes (h : BytesValid s a 4)
    (hea : effectiveAddress s rs imm = significanceAddress s.params.endian a 0) :
    FillsBytes (.lwr rs rt imm) s rt (s.memWord a)
      (· < 4 - significance s.params.endian (significanceAddress s.params.endian a 0)) := by
  have hvalid : ∀ p ∈ rightAddresses s.params.endian (significanceAddress s.params.endian a 0),
      s.validAddr p = true := fun p hp => by
    obtain ⟨j, hj, rfl⟩ := mem_rightAddresses_end s.params.endian a hp
    exact bytesValid_significance s.params.endian a h hj
  obtain ⟨t, hnext, hwritten⟩ := loadReg_written hvalid rfl
  refine ⟨t, _, (exec_lwr s rs rt imm).trans (hea ▸ hnext), hwritten, fun j hj => ?_⟩
  rw [byteOf_mergeRight _ _ _ hj]
  refine ⟨fun hpart => ?_, fun hpart => if_neg hpart⟩
  rw [if_pos hpart, byteOf_memWord s _ (by omega), byteOf_memWord s a hj,
    significanceAddress_wordBase_end s.params.endian a (by omega) (by omega) hj (by omega)]

/-- Two instructions that fill complementary bytes of a register, one after the other, fill it. -/
theorem fillsBytes_both {i i' : Instr} {w : Word} {part part' : Nat → Prop} (hrt : rt ≠ 0#5)
    (h : FillsBytes i s rt w part) (h' : ∀ t v, RegWritten s t rt v → FillsBytes i' t rt w part')
    (hcover : ∀ j, part j ∨ part' j) :
    ∃ t u, exec i s = .next t ∧ exec i' t = .next u ∧ u.reg rt = w := by
  obtain ⟨t, v, hnext, hwritten, hbytes⟩ := h
  obtain ⟨u, v', hnext', hwritten', hbytes'⟩ := h' t v hwritten
  refine ⟨t, u, hnext, hnext', ?_⟩
  have hv : t.reg rt = v := (hwritten.reg rt).trans (if_pos ⟨rfl, hrt⟩)
  rw [hwritten'.reg rt, if_pos ⟨rfl, hrt⟩]
  refine eq_of_byteOf_eq fun j hj => ?_
  by_cases hpart' : part' j
  · exact (hbytes' j hj).1 hpart'
  · rw [(hbytes' j hj).2 hpart', hv]
    exact (hbytes j hj).1 ((hcover j).resolve_right hpart')

end fills

/-! ### What a register write leaves for the next load -/

section written
variable {s t : State} {rs rt : RegIdx} {v a : Word} {n : Nat}

theorem effectiveAddress_of_written (h : RegWritten s t rt v) (hne : rs ≠ rt) (imm : Half) :
    effectiveAddress t rs imm = effectiveAddress s rs imm := by
  rw [effectiveAddress, effectiveAddress, h.reg rs, if_neg fun hsame => hne hsame.1]

theorem memWord_of_written (h : RegWritten s t rt v) : t.memWord a = s.memWord a :=
  memWord_congr h.params fun _ _ => h.mem _

theorem bytesValid_of_written (h : RegWritten s t rt v) (hvalid : BytesValid s a n) : BytesValid t a n := by
  intro i hi
  rw [State.validAddr, h.params]
  exact hvalid i hi

end written

/-- Settles O48: the first load leaves address and memory for the second, and they fill complementary bytes. -/
theorem unalignedLoadPair : Obligations.UnalignedLoadPair := by
  intro s rs rt immL immR a hne hrt hvalid hleft hright
  have hleft' : effectiveAddress s rs immL = significanceAddress s.params.endian a 3 := by
    rw [hleft]; cases s.params.endian <;> simp [significanceAddress]
  have hright' : effectiveAddress s rs immR = significanceAddress s.params.endian a 0 := by
    rw [hright]; cases s.params.endian <;> simp [significanceAddress]
  have hcover := significance_ends s.params.endian a
  have hlwl : ∀ t v, RegWritten s t rt v → FillsBytes (.lwl rs rt immL) t rt (s.memWord a)
      (3 - significance s.params.endian (significanceAddress s.params.endian a 3) ≤ ·) := fun t v hw => by
    rw [← memWord_of_written hw, ← hw.params]
    refine lwl_fillsBytes (bytesValid_of_written hw hvalid) ?_
    rw [effectiveAddress_of_written hw hne, hleft', hw.params]
  have hlwr : ∀ t v, RegWritten s t rt v → FillsBytes (.lwr rs rt immR) t rt (s.memWord a)
      (· < 4 - significance s.params.endian (significanceAddress s.params.endian a 0)) := fun t v hw => by
    rw [← memWord_of_written hw, ← hw.params]
    refine lwr_fillsBytes (bytesValid_of_written hw hvalid) ?_
    rw [effectiveAddress_of_written hw hne, hright', hw.params]
  exact ⟨fillsBytes_both hrt (lwl_fillsBytes hvalid hleft') hlwr fun j => by omega,
    fillsBytes_both hrt (lwr_fillsBytes hvalid hright') hlwl fun j => by omega⟩

end Sys2Proof.Machine

/-! SUPPORT. Stores (spec/46_store.md): a store completes with its cells in memory or is refused, the cells of each
store are those of consecutive addresses, and what `swl` and `swr` leave in their aligned word, byte by byte. -/

namespace Sys2Proof.Machine

/-! ### Cells at consecutive addresses (R32) -/

/-- The bytes `b 0`, …, `b (n - 1)` at the `n` addresses from `a` up. -/
def rangeCells (a : Word) (n : Nat) (b : Nat → Byte) : List (Word × Byte) :=
  (List.range n).map fun i => (a + BitVec.ofNat 32 i, b i)

theorem rangeCells_addresses (a : Word) (n : Nat) (b : Nat → Byte) :
    (rangeCells a n b).map (·.1) = addressRange a n := by
  simp [rangeCells, addressRange]

theorem storedCells_eq_rangeCells (e : Endian) (a : Word) (n : Nat) (v : Word) :
    storedCells e a n v = rangeCells a n (storedByte e n v) := rfl

theorem storedCells_one (e : Endian) (a v : Word) :
    storedCells e a 1 v = rangeCells a 1 fun _ => byteOf v 0 := by
  cases e <;> rfl

/-! ### The shared operation, for cells listed in any order (R38, R39, R45) -/

section storeBytes
variable {s : State} {cells : List (Word × Byte)} {a : Word} {n : Nat} {b : Nat → Byte}

theorem addresses_perm (h : cells.Perm (rangeCells a n b)) : (cells.map (·.1)).Perm (addressRange a n) :=
  rangeCells_addresses a n b ▸ h.map _

theorem addresses_nodup (h : cells.Perm (rangeCells a n b)) (hn : n ≤ 2 ^ 32) : (cells.map (·.1)).Nodup :=
  (addresses_perm h).nodup_iff.mpr (addressRange_nodup a hn)

theorem bytesWritable_iff : BytesWritable s a n ↔
    ∀ p ∈ addressRange a n, s.validAddr p = true ∧ s.inText p = false := by
  simp [BytesWritable, addressRange]

theorem bytesWritable_iff_of_perm (h : cells.Perm (rangeCells a n b)) :
    BytesWritable s a n ↔ ∀ p ∈ cells.map (·.1), s.validAddr p = true ∧ s.inText p = false := by
  simp only [bytesWritable_iff, (addresses_perm h).mem_iff]

theorem stored_writeCells (h : cells.Perm (rangeCells a n b)) (hn : n ≤ 2 ^ 32) :
    Stored s { s with mem := s.mem.writeCells cells }.advance a n b where
  bytes i hi := read_writeCells_mem cells s.mem (a + BitVec.ofNat 32 i, b i) (addresses_nodup h hn)
    (h.mem_iff.mpr (List.mem_map.mpr ⟨i, List.mem_range.mpr hi, rfl⟩))
  others p hp := by
    refine read_writeCells_other cells s.mem p ?_
    rw [(addresses_perm h).mem_iff, mem_addressRange]
    rintro ⟨i, hi, heq⟩
    exact hp i hi heq
  reg _ := rfl
  pc := rfl
  hi := rfl
  lo := rfl
  trap := rfl
  params := rfl
  draws := rfl

theorem storeBytes_of_bytesWritable (h : cells.Perm (rangeCells a n b)) (hw : BytesWritable s a n) :
    storeBytes cells s = .next { s with mem := s.mem.writeCells cells }.advance :=
  storeBytes_writable ((bytesWritable_iff_of_perm h).mp hw)

theorem storeBytes_refused (h : cells.Perm (rangeCells a n b)) (hw : ¬ BytesWritable s a n) :
    ∃ r, storeBytes cells s = .refused r := by
  rw [bytesWritable_iff_of_perm h, ← refuseStore_eq_none] at hw
  obtain ⟨r, hr⟩ := Option.ne_none_iff_exists'.mp hw
  exact ⟨r, by rw [storeBytes, hr]⟩

end storeBytes

/-! ### The five stores, by their shared operation -/

section exec
variable (s : State) (rs rt : RegIdx) (imm : Half)

theorem exec_sb : exec (.sb rs rt imm) s =
    storeBytes (storedCells s.params.endian (effectiveAddress s rs imm) 1 (s.reg rt)) s := rfl

theorem exec_swl : exec (.swl rs rt imm) s =
    storeBytes (leftCells s.params.endian (effectiveAddress s rs imm) (s.reg rt)) s := rfl

theorem exec_swr : exec (.swr rs rt imm) s =
    storeBytes (rightCells s.params.endian (effectiveAddress s rs imm) (s.reg rt)) s := rfl

end exec

section aligned
variable {s : State} {rs rt : RegIdx} {imm : Half}

theorem exec_sh_of_odd (h : (effectiveAddress s rs imm).toNat % 2 = 1) :
    exec (.sh rs rt imm) s = raise (.addressError .store (effectiveAddress s rs imm)) s :=
  if_neg (by simp [halfAligned, h])

theorem exec_sh_of_even (h : (effectiveAddress s rs imm).toNat % 2 = 0) :
    exec (.sh rs rt imm) s =
      storeBytes (storedCells s.params.endian (effectiveAddress s rs imm) 2 (s.reg rt)) s :=
  if_pos (beq_iff_eq.mpr h)

theorem exec_sw_of_misaligned (h : (effectiveAddress s rs imm).toNat % 4 ≠ 0) :
    exec (.sw rs rt imm) s = raise (.addressError .store (effectiveAddress s rs imm)) s :=
  if_neg (mt wordAligned_iff.mp h)

theorem exec_sw_of_aligned (h : (effectiveAddress s rs imm).toNat % 4 = 0) :
    exec (.sw rs rt imm) s =
      storeBytes (storedCells s.params.endian (effectiveAddress s rs imm) 4 (s.reg rt)) s :=
  if_pos (wordAligned_iff.mpr h)

end aligned

/-! ### Bytes, half words and words -/

/-- Settles O49: a byte store has one cell, the same in both byte orders. -/
theorem storeByteResults : Obligations.StoreByteResults := by
  intro s rs rt imm ea
  rw [exec_sb, storedCells_one]
  exact ⟨spells_encode (.sb rs rt imm),
    fun hw => ⟨_, storeBytes_of_bytesWritable (.refl _) hw, stored_writeCells (.refl _) (by decide)⟩,
    storeBytes_refused (.refl _)⟩

/-- Settles O50: the alignment test comes before memory is looked at, and what is written reads back (O25). -/
theorem storeHalfResults : Obligations.StoreHalfResults := by
  intro s rs rt imm ea
  refine ⟨spells_encode (.sh rs rt imm), fun hodd => ?_, fun heven hw => ?_, fun heven hw => ?_⟩
  · rw [exec_sh_of_odd hodd]
    exact raise_trapped _ s
  · rw [exec_sh_of_even heven, storedCells_eq_rangeCells]
    obtain ⟨-, -, -, hhalf, -⟩ := writePlacesBytesAndReadsBack s ea (s.reg rt) 2 (by decide)
    exact ⟨_, storeBytes_of_bytesWritable (.refl _) hw, stored_writeCells (.refl _) (by decide), hhalf rfl⟩
  · rw [exec_sh_of_even heven, storedCells_eq_rangeCells]
    exact storeBytes_refused (.refl _) hw

/-- Settles O51: the alignment test comes before memory is looked at, and what is written reads back (O25). -/
theorem storeWordResults : Obligations.StoreWordResults := by
  intro s rs rt imm ea
  refine ⟨spells_encode (.sw rs rt imm), fun hmis => ?_, fun haligned hw => ?_, fun haligned hw => ?_⟩
  · rw [exec_sw_of_misaligned hmis]
    exact raise_trapped _ s
  · rw [exec_sw_of_aligned haligned, storedCells_eq_rangeCells]
    obtain ⟨-, -, -, -, hword⟩ := writePlacesBytesAndReadsBack s ea (s.reg rt) 4 (by decide)
    exact ⟨_, storeBytes_of_bytesWritable (.refl _) hw, stored_writeCells (.refl _) (by decide), hword rfl⟩
  · rw [exec_sw_of_aligned haligned, storedCells_eq_rangeCells]
    exact storeBytes_refused (.refl _) hw

/-! ### The cells of `swl` and `swr` at consecutive addresses (R133, R134) -/

/-- The byte that `swl` puts `i` above its lowest address, `k` being the significance of the addressed one. -/
def leftByte (e : Endian) (k : Nat) (v : Word) (i : Nat) : Byte :=
  match e with
  | .little => byteOf v (3 - k + i)
  | .big => byteOf v (3 - i)

/-- The byte that `swr` puts `i` above its lowest address, `k` being the significance of the addressed one. -/
def rightByte (e : Endian) (k : Nat) (v : Word) (i : Nat) : Byte :=
  match e with
  | .little => byteOf v i
  | .big => byteOf v (3 - k - i)

/-- The same elements, from the last one down. -/
theorem map_range_perm_of_reversed {α : Type} {f g : Nat → α} {n : Nat} (h : ∀ i < n, f i = g (n - 1 - i)) :
    ((List.range n).map f).Perm ((List.range n).map g) := by
  have hreverse : (List.range n).map f = ((List.range n).map g).reverse :=
    List.ext_getElem (by simp) fun i hi _ => by
      have hlt : i < n := by simpa using hi
      simp [h i hlt]
  exact hreverse ▸ List.reverse_perm _

theorem leftCells_perm (e : Endian) (ea v : Word) :
    (leftCells e ea v).Perm
      (rangeCells (leftStart e ea) (significance e ea + 1) (leftByte e (significance e ea) v)) := by
  cases e with
  | little => exact .refl _
  | big =>
    have hk := significance_lt .big ea
    refine map_range_perm_of_reversed fun m hm => Prod.ext ?_ (congrArg (byteOf v) (by omega))
    have haddressed := significanceAddress_significance .big ea
    simp only [significanceAddress, significance, leftStart] at haddressed hm ⊢
    bv_omega

theorem rightCells_perm (e : Endian) (ea v : Word) :
    (rightCells e ea v).Perm
      (rangeCells (rightStart e ea) (4 - significance e ea) (rightByte e (significance e ea) v)) := by
  cases e with
  | little =>
    refine .of_eq (List.map_congr_left fun i _ => Prod.ext ?_ rfl)
    have haddressed := significanceAddress_significance .little ea
    simp only [significanceAddress] at haddressed ⊢
    rw [BitVec.ofNat_add, ← BitVec.add_assoc, haddressed, rightStart]
  | big =>
    refine map_range_perm_of_reversed fun i hi => Prod.ext ?_ (congrArg (byteOf v) (by omega))
    simp only [significanceAddress, rightStart]
    congr 2
    omega

theorem leftCells_nodup (e : Endian) (ea v : Word) : ((leftCells e ea v).map (·.1)).Nodup :=
  addresses_nodup (leftCells_perm e ea v) (by have := significance_lt e ea; omega)

theorem rightCells_nodup (e : Endian) (ea v : Word) : ((rightCells e ea v).map (·.1)).Nodup :=
  addresses_nodup (rightCells_perm e ea v) (by omega)

/-! ### Cells by significance (R128) -/

theorem significanceAddress_inj {e : Endian} {a : Word} {i j : Nat} (hi : i < 4) (hj : j < 4)
    (h : significanceAddress e a i = significanceAddress e a j) : i = j := by
  cases e <;> simp only [significanceAddress] at h <;> bv_omega

/-- The cells are bytes of the word at `a`: `b j` at significance `j`, for each `j` in `part`. -/
def AreBytesOfWord (e : Endian) (a : Word) (b : Nat → Byte) (part : Nat → Prop) (cells : List (Word × Byte)) :
    Prop :=
  ∀ c, c ∈ cells ↔ ∃ j < 4, part j ∧ c = (significanceAddress e a j, b j)

section areBytesOfWord
variable {s : State} {a : Word} {b : Nat → Byte} {part : Nat → Prop} {cells : List (Word × Byte)} {e : Endian}

theorem AreBytesOfWord.mem_addresses (h : AreBytesOfWord e a b part cells) {p : Word} :
    p ∈ cells.map (·.1) ↔ ∃ j < 4, part j ∧ p = significanceAddress e a j := by
  constructor
  · intro hp
    obtain ⟨c, hc, rfl⟩ := List.mem_map.mp hp
    obtain ⟨j, hj, hpart, rfl⟩ := (h c).mp hc
    exact ⟨j, hj, hpart, rfl⟩
  · rintro ⟨j, hj, hpart, rfl⟩
    exact List.mem_map.mpr ⟨_, (h _).mpr ⟨j, hj, hpart, rfl⟩, rfl⟩

theorem AreBytesOfWord.byteOf_memWord [DecidablePred part]
    (h : AreBytesOfWord s.params.endian a b part cells) (hnodup : (cells.map (·.1)).Nodup) {j : Nat} (hj : j < 4) :
    byteOf ({ s with mem := s.mem.writeCells cells }.advance.memWord a) j =
      if part j then b j else byteOf (s.memWord a) j := by
  rw [Machine.byteOf_memWord _ _ hj, Machine.byteOf_memWord _ _ hj]
  split
  next hpart =>
    exact read_writeCells_mem cells s.mem (_, b j) hnodup ((h _).mpr ⟨j, hj, hpart, rfl⟩)
  next hkept =>
    refine read_writeCells_other cells s.mem _ fun hmem => ?_
    obtain ⟨m, hm, hpart, heq⟩ := h.mem_addresses.mp hmem
    exact hkept (significanceAddress_inj hj hm heq ▸ hpart)

end areBytesOfWord

theorem leftCells_areBytesOfWord (e : Endian) (ea v : Word) :
    AreBytesOfWord e (wordBase ea) (fun j => byteOf v (3 - significance e ea + j)) (· ≤ significance e ea)
      (leftCells e ea v) := by
  intro c
  have hk := significance_lt e ea
  constructor
  · intro hc
    obtain ⟨j, hj, rfl⟩ := List.mem_map.mp hc
    have hle := List.mem_range.mp hj
    exact ⟨j, by omega, by omega, rfl⟩
  · rintro ⟨j, -, hle, rfl⟩
    exact List.mem_map.mpr ⟨j, List.mem_range.mpr (Nat.lt_succ_of_le hle), rfl⟩

theorem rightCells_areBytesOfWord (e : Endian) (ea v : Word) :
    AreBytesOfWord e (wordBase ea) (fun j => byteOf v (j - significance e ea)) (¬ · < significance e ea)
      (rightCells e ea v) := by
  intro c
  constructor
  · intro hc
    obtain ⟨i, hi, rfl⟩ := List.mem_map.mp hc
    have hlt := List.mem_range.mp hi
    exact ⟨significance e ea + i, by omega, by omega, Prod.ext rfl (congrArg (byteOf v) (by omega))⟩
  · rintro ⟨j, hj, hge, rfl⟩
    refine List.mem_map.mpr ⟨j - significance e ea, List.mem_range.mpr (by omega), ?_⟩
    rw [Nat.add_sub_cancel' (not_lt.mp hge)]

/-- Settles O52: the cells are listed once by address, for the frame, and once by significance, for the word. -/
theorem storeWordLeftResults : Obligations.StoreWordLeftResults := by
  intro s rs rt imm ea k start
  have hperm := leftCells_perm s.params.endian ea (s.reg rt)
  rw [exec_swl]
  refine ⟨spells_encode (.swl rs rt imm), fun hw => ?_, storeBytes_refused hperm⟩
  have hk : k < 4 := significance_lt s.params.endian ea
  exact ⟨_, storeBytes_of_bytesWritable hperm hw, stored_writeCells hperm (by omega), fun j hj =>
    (leftCells_areBytesOfWord _ ea _).byteOf_memWord (leftCells_nodup _ ea _) hj⟩

/-- Settles O53: the cells are listed once by address, for the frame, and once by significance, for the word. -/
theorem storeWordRightResults : Obligations.StoreWordRightResults := by
  intro s rs rt imm ea k start
  have hperm := rightCells_perm s.params.endian ea (s.reg rt)
  rw [exec_swr]
  refine ⟨spells_encode (.swr rs rt imm), fun hw => ?_, storeBytes_refused hperm⟩
  exact ⟨_, storeBytes_of_bytesWritable hperm hw, stored_writeCells hperm (by omega), fun j hj =>
    ((rightCells_areBytesOfWord _ ea _).byteOf_memWord (rightCells_nodup _ ea _) hj).trans (ite_not _ _ _)⟩

end Sys2Proof.Machine

/-! SUPPORT. `swl` and `swr` together store a register at any address (spec/46_store.md R133, corner case 3): each
writes the bytes of the word that lie in its own aligned word, and between them they write all four. -/

namespace Sys2Proof.Machine

/-! ### The cells of each store, in the word at `a` -/

section ends
variable (e : Endian) (a v : Word)

theorem leftCells_end : AreBytesOfWord e a (byteOf v) (3 - significance e (significanceAddress e a 3) ≤ ·)
    (leftCells e (significanceAddress e a 3) v) := by
  intro c
  have hk := significance_lt e (significanceAddress e a 3)
  rw [leftCells_areBytesOfWord]
  constructor
  · rintro ⟨m, hm, hle, rfl⟩
    exact ⟨3 - significance e (significanceAddress e a 3) + m, by omega, by omega,
      Prod.ext (significanceAddress_wordBase_end e a (by omega) hm (by omega) (by omega)) rfl⟩
  · rintro ⟨j, hj, hge, rfl⟩
    exact ⟨j - (3 - significance e (significanceAddress e a 3)), by omega, by omega,
      Prod.ext (significanceAddress_wordBase_end e a (by omega) (by omega) hj (by omega)).symm
        (congrArg (byteOf v) (by omega))⟩

theorem rightCells_end : AreBytesOfWord e a (byteOf v) (· < 4 - significance e (significanceAddress e a 0))
    (rightCells e (significanceAddress e a 0) v) := by
  intro c
  rw [rightCells_areBytesOfWord]
  constructor
  · rintro ⟨m, hm, hge, rfl⟩
    exact ⟨m - significance e (significanceAddress e a 0), by omega, by omega,
      Prod.ext (significanceAddress_wordBase_end e a (by omega) hm (by omega) (by omega)) rfl⟩
  · rintro ⟨j, hj, hlt, rfl⟩
    exact ⟨j + significance e (significanceAddress e a 0), by omega, by omega,
      Prod.ext (significanceAddress_wordBase_end e a (by omega) (by omega) hj (by omega)).symm
        (congrArg (byteOf v) (by omega))⟩

theorem significanceAddress_mem_addressRange {j : Nat} (hj : j < 4) :
    significanceAddress e a j ∈ addressRange a 4 := by
  cases e with
  | little => exact mem_addressRange.mpr ⟨j, hj, rfl⟩
  | big => exact mem_addressRange.mpr ⟨3 - j, by omega, rfl⟩

end ends

/-! ### Filling some bytes of a word in memory -/

/-- The instruction completes with a change of memory and `pc <- pc + 4`: the bytes of the word at `a` whose
significance is in `part` become those of `v`. -/
def FillsWord (i : Instr) (s : State) (a v : Word) (part : Nat → Prop) [DecidablePred part] : Prop :=
  ∃ m, exec i s = .next { s with mem := m }.advance ∧
    (∀ j < 4, byteOf ({ s with mem := m }.advance.memWord a) j =
      if part j then byteOf v j else byteOf (s.memWord a) j) ∧
    ∀ p ∉ addressRange a 4, m.read p = s.memByte p

section fills
variable {s : State} {rs rt : RegIdx} {imm : Half} {a v : Word} {i i' : Instr} {part part' : Nat → Prop}
  [DecidablePred part] [DecidablePred part'] {cells : List (Word × Byte)}

theorem fillsWord_of_storeBytes (hexec : exec i s = storeBytes cells s) (hw : BytesWritable s a 4)
    (hcells : AreBytesOfWord s.params.endian a (byteOf v) part cells) (hnodup : (cells.map (·.1)).Nodup) :
    FillsWord i s a v part := by
  have hrange : ∀ p ∈ cells.map (·.1), p ∈ addressRange a 4 := fun p hp => by
    obtain ⟨j, hj, -, rfl⟩ := hcells.mem_addresses.mp hp
    exact significanceAddress_mem_addressRange _ a hj
  exact ⟨_, hexec.trans (storeBytes_writable fun p hp => bytesWritable_iff.mp hw p (hrange p hp)),
    fun j hj => hcells.byteOf_memWord hnodup hj,
    fun p hp => read_writeCells_other cells s.mem p (mt (hrange p) hp)⟩

theorem swl_fillsWord (hw : BytesWritable s a 4)
    (hea : effectiveAddress s rs imm = significanceAddress s.params.endian a 3) :
    FillsWord (.swl rs rt imm) s a (s.reg rt)
      (3 - significance s.params.endian (significanceAddress s.params.endian a 3) ≤ ·) :=
  fillsWord_of_storeBytes (hea ▸ exec_swl s rs rt imm) hw (leftCells_end _ a _) (leftCells_nodup _ _ _)

theorem swr_fillsWord (hw : BytesWritable s a 4)
    (hea : effectiveAddress s rs imm = significanceAddress s.params.endian a 0) :
    FillsWord (.swr rs rt imm) s a (s.reg rt)
      (· < 4 - significance s.params.endian (significanceAddress s.params.endian a 0)) :=
  fillsWord_of_storeBytes (hea ▸ exec_swr s rs rt imm) hw (rightCells_end _ a _) (rightCells_nodup _ _ _)

/-- Two instructions that fill complementary bytes of a word, one after the other, fill it. -/
theorem fillsWord_both (h : FillsWord i s a v part)
    (h' : ∀ m, FillsWord i' { s with mem := m }.advance a v part') (hcover : ∀ j, part j ∨ part' j) :
    ∃ t u, exec i s = .next t ∧ exec i' t = .next u ∧ u.memWord a = v ∧
      ∀ p, (∀ i < 4, p ≠ a + BitVec.ofNat 32 i) → u.memByte p = s.memByte p := by
  obtain ⟨m, hnext, hbytes, hothers⟩ := h
  obtain ⟨m', hnext', hbytes', hothers'⟩ := h' m
  refine ⟨_, _, hnext, hnext', eq_of_byteOf_eq fun j hj => ?_, fun p hp => ?_⟩
  · rw [hbytes' j hj]
    split
    next => rfl
    next hkept => rw [hbytes j hj, if_pos ((hcover j).resolve_right hkept)]
  · have hout : p ∉ addressRange a 4 := fun hmem => by
      obtain ⟨i, hi, heq⟩ := mem_addressRange.mp hmem
      exact hp i hi heq
    exact (hothers' p hout).trans (hothers p hout)

end fills

/-- Settles O54: the first store leaves the address and the register for the second, and they fill complementary
bytes. -/
theorem unalignedStorePair : Obligations.UnalignedStorePair := by
  intro s rs rt immL immR a hw hleft hright
  have hleft' : effectiveAddress s rs immL = significanceAddress s.params.endian a 3 := by
    rw [hleft]; cases s.params.endian <;> simp [significanceAddress]
  have hright' : effectiveAddress s rs immR = significanceAddress s.params.endian a 0 := by
    rw [hright]; cases s.params.endian <;> simp [significanceAddress]
  have hcover := significance_ends s.params.endian a
  have hswl : ∀ m, FillsWord (.swl rs rt immL) { s with mem := m }.advance a (s.reg rt)
      (3 - significance s.params.endian (significanceAddress s.params.endian a 3) ≤ ·) :=
    fun m => swl_fillsWord (s := { s with mem := m }.advance) hw hleft'
  have hswr : ∀ m, FillsWord (.swr rs rt immR) { s with mem := m }.advance a (s.reg rt)
      (· < 4 - significance s.params.endian (significanceAddress s.params.endian a 0)) :=
    fun m => swr_fillsWord (s := { s with mem := m }.advance) hw hright'
  exact ⟨fillsWord_both (swl_fillsWord hw hleft') hswr fun j => by omega,
    fillsWord_both (swr_fillsWord hw hright') hswl fun j => by omega⟩

end Sys2Proof.Machine

/-! SUPPORT. Shifts (spec/47_shift.md): a left shift multiplies by a power of two modulo 2^32, a right shift divides by
one, rounding down. -/

namespace Sys2Proof.Machine

/-! ### The six instructions, by their shared operation -/

section exec
variable (s : State) (rs rt rd : RegIdx) (sa : BitVec 5)

theorem exec_sll : exec (.sll rt rd sa) s = writeReg rd (s.reg rt <<< sa.toNat) s := rfl

theorem exec_sra : exec (.sra rt rd sa) s = writeReg rd ((s.reg rt).sshiftRight sa.toNat) s := rfl

theorem exec_srl : exec (.srl rt rd sa) s = writeReg rd (s.reg rt >>> sa.toNat) s := rfl

theorem exec_sllv : exec (.sllv rs rt rd) s = writeReg rd (s.reg rt <<< shiftCount (s.reg rs)) s := rfl

theorem exec_srav : exec (.srav rs rt rd) s = writeReg rd ((s.reg rt).sshiftRight (shiftCount (s.reg rs))) s := rfl

theorem exec_srlv : exec (.srlv rs rt rd) s = writeReg rd (s.reg rt >>> shiftCount (s.reg rs)) s := rfl

end exec

/-! ### The result, as arithmetic on the value -/

section result
variable (a : Word) (n : Nat)

theorem shiftLeft_eq_ofNat : a <<< n = BitVec.ofNat 32 (a.toNat * 2 ^ n) := by
  rw [← Nat.shiftLeft_eq]
  rfl

/-- An arithmetic shift is a division of the signed value. -/
theorem sshiftRight_eq_ofInt : a.sshiftRight n = BitVec.ofInt 32 (a.toInt / 2 ^ n) := by
  rw [BitVec.sshiftRight, Int.shiftRight_eq_div_pow]
  rfl

/-- A logical shift is a division of the unsigned value. -/
theorem ushiftRight_eq_ofNat : a >>> n = BitVec.ofNat 32 (a.toNat / 2 ^ n) := by
  rw [← Nat.shiftRight_eq_div_pow, ← BitVec.toNat_ushiftRight, BitVec.ofNat_toNat, BitVec.setWidth_eq]

/-- The low five bits of a register are its value modulo 32 (R56). -/
theorem shiftCount_eq_mod : shiftCount a = a.toNat % 32 := by
  rw [shiftCount, BitVec.extractLsb'_toNat, Nat.shiftRight_zero]

end result

/-- Settles O56: each writes the shifted operand, which is the power of two times it or divided out of it. -/
theorem fixedShiftResults : Obligations.FixedShiftResults := fun s rt rd sa =>
  ⟨spells_encode (.sll rt rd sa), exec_sll s rt rd sa ▸ writeReg_written (shiftLeft_eq_ofNat _ _),
    spells_encode (.sra rt rd sa), exec_sra s rt rd sa ▸ writeReg_written (sshiftRight_eq_ofInt _ _),
    spells_encode (.srl rt rd sa), exec_srl s rt rd sa ▸ writeReg_written (ushiftRight_eq_ofNat _ _)⟩

/-- Settles O57: as for the fixed shifts, by the value of the count register modulo 32. -/
theorem variableShiftResults : Obligations.VariableShiftResults := by
  intro s rs rt rd a n
  rw [exec_sllv, exec_srav, exec_srlv, shiftCount_eq_mod]
  exact ⟨spells_encode (.sllv rs rt rd), writeReg_written (shiftLeft_eq_ofNat a n),
    spells_encode (.srav rs rt rd), writeReg_written (sshiftRight_eq_ofInt a n),
    spells_encode (.srlv rs rt rd), writeReg_written (ushiftRight_eq_ofNat a n)⟩

end Sys2Proof.Machine

/-! SUPPORT. Compares and the system call (spec/48_compare.md, spec/49_system.md): the register write of
`writeReg_written` of a comparison's outcome, and an exception that is always raised. -/

namespace Sys2Proof.Machine

/-! ### The five instructions, by their shared operation -/

section exec
variable (s : State) (rs rt rd : RegIdx) (imm : Half) (code : BitVec 20)

theorem exec_slt : exec (.slt rs rt rd) s = writeReg rd (boolWord (lessSigned (s.reg rs) (s.reg rt))) s := rfl

theorem exec_slti : exec (.slti rs rt imm) s = writeReg rt (boolWord (lessSigned (s.reg rs) (sext imm))) s := rfl

theorem exec_sltui : exec (.sltui rs rt imm) s = writeReg rt (boolWord (lessUnsigned (s.reg rs) (sext imm))) s := rfl

theorem exec_sltu : exec (.sltu rs rt rd) s = writeReg rd (boolWord (lessUnsigned (s.reg rs) (s.reg rt))) s := rfl

theorem exec_syscall : exec (.syscall code) s = raise .systemCall s := rfl

end exec

/-! ### The outcome of a comparison -/

theorem boolWord_eq_ite {c : Bool} {p : Prop} [Decidable p] (h : c = true ↔ p) :
    boolWord c = if p then 1#32 else 0#32 :=
  if_congr h rfl rfl

section comparison
variable (a b : Word) (imm : Half)

theorem lessSigned_iff : lessSigned a b = true ↔ a.toInt < b.toInt := decide_eq_true_iff

theorem lessUnsigned_iff : lessUnsigned a b = true ↔ a.toNat < b.toNat := decide_eq_true_iff

theorem lessSigned_sext_iff : lessSigned a (sext imm) = true ↔ a.toInt < imm.toInt := by
  rw [lessSigned_iff, toInt_sext]

/-- The immediate is sign-extended first, then read as an unsigned number (R152). -/
theorem lessUnsigned_sext_iff : lessUnsigned a (sext imm) = true ↔ (a.toNat : Int) < imm.toInt % 2 ^ 32 := by
  rw [lessUnsigned_iff, ← toNat_sext, Int.ofNat_lt]

end comparison

/-- Settles O58: each writes the outcome of the one test on its operands, 1 or 0. -/
theorem compareResults : Obligations.CompareResults := by
  intro s rs rt rd imm a b
  rw [exec_slt, exec_slti, exec_sltui, exec_sltu]
  exact ⟨spells_encode (.slt rs rt rd), writeReg_written (boolWord_eq_ite (lessSigned_iff a b)),
    spells_encode (.slti rs rt imm), writeReg_written (boolWord_eq_ite (lessSigned_sext_iff a imm)),
    spells_encode (.sltui rs rt imm), writeReg_written (boolWord_eq_ite (lessUnsigned_sext_iff a imm)),
    spells_encode (.sltu rs rt rd), writeReg_written (boolWord_eq_ite (lessUnsigned_iff a b))⟩

/-- Settles O59: the code field is encoded and decoded but not looked at. -/
theorem systemCallTraps : Obligations.SystemCallTraps := fun s code =>
  ⟨spells_encode (.syscall code), exec_syscall s code ▸ raise_trapped .systemCall s⟩

end Sys2Proof.Machine

/-! SUPPORT. Exceptions (spec/60_exceptions.md R173, R174, R176): which exception the fetch and each instruction raise,
with the information that goes into the record. -/

namespace Sys2Proof.Machine

/-! ### A word that is in no row of the opcode table (R173) -/

/-- Every constructor has its row in the table: the row does not depend on the operands, so it is compared
as a closed term with the 57. -/
theorem opcodeRow_mem_opcodeRows (i : Instr) : i.opcodeRow ∈ opcodeRows := by
  cases i <;> exact of_decide_eq_true rfl

theorem decode_error_of_no_row {w : Word} (h : ∀ row ∈ opcodeRows, w &&& row.mask ≠ row.pattern) :
    ∃ err, decode w = .error err := by
  cases hw : decode w with
  | error err => exact ⟨err, rfl⟩
  | ok i => exact absurd (match_iff_decode.mpr ⟨i, hw, rfl⟩) (h _ (opcodeRow_mem_opcodeRows i))

theorem fetchInstr_undecoded {s : State} {err : DecodeError} (hfetch : Fetchable s)
    (herr : decode (s.memWord s.pc) = .error err) :
    fetchInstr s = .exception (.reservedInstruction (s.memWord s.pc)) := by
  obtain ⟨haligned, hnone⟩ := fetchable_iff.mp hfetch
  simp [fetchInstr, wordAligned_iff.mpr haligned, hnone, herr]

/-- Settles O5: a word that decoded would match the row of its instruction. -/
theorem undefinedWordRaises : Obligations.UndefinedWordRaises := by
  intro s htrap hfetch hrows
  obtain ⟨err, herr⟩ := decode_error_of_no_row hrows
  exact ⟨_, step_exception htrap (fetchInstr_undecoded hfetch herr), takeException_trapped _ s⟩

/-! ### The exceptions of the fetch and the decode (R177) -/

section fetch
variable {s : State}

theorem decode_of_fetchInstr {i : Instr} (h : fetchInstr s = .instr i) : decode (s.memWord s.pc) = .ok i := by
  unfold fetchInstr at h
  split at h
  · split at h
    · cases h
    · split at h
      next hdecode => cases h; exact hdecode
      next => cases h
  · cases h

theorem fetchInstr_exception {e : Exception} (h : fetchInstr s = .exception e) :
    e = .addressError .fetch s.pc ∨ e = .reservedInstruction (s.memWord s.pc) := by
  unfold fetchInstr at h
  split at h
  · split at h
    · cases h
    · split at h
      next => cases h
      next => cases h; exact .inr rfl
  · cases h
    exact .inl rfl

end fetch

/-! ### The exception of an instruction (R174) -/

section instruction
variable {i : Instr} {s t : State}

/-- The exception is the one that the table of R174 gives the instruction, and its offending address, if it has one, is
the effective address of the load or store (R171). -/
structure RaisedBy (i : Instr) (s : State) (e : Exception) : Prop where
  kind : i.canRaise = some (e.record s.pc).kind
  badaddr : (e.record s.pc).badaddr = i.memoryOperand.map fun m => effectiveAddress s m.1 m.2

/-- The trap record as before, or the state that the instruction's exception leaves. -/
def TrapKeptOrRaisedBy (i : Instr) (s t : State) : Prop :=
  t.trap = s.trap ∨ ∃ e, RaisedBy i s e ∧ t = takeException e s

theorem memoryOperand_of_overflow (h : i.canRaise = some .overflow) : i.memoryOperand = none := by
  cases i with
  | add | addi | sub => rfl
  | _ => cases h

theorem memoryOperand_of_systemCall (h : i.canRaise = some .systemCall) : i.memoryOperand = none := by
  cases i with
  | syscall => rfl
  | _ => cases h

theorem canRaise_ne_fetchError : i.canRaise ≠ some (.addressError .fetch) := by cases i <;> nofun

/-- An access behind an alignment test leaves the trap record, or raises. -/
theorem aligned_keeps_or_raises {aligned : Bool} {access : Result} {e : Exception}
    (haccess : access = .next t → t.trap = s.trap) (he : RaisedBy i s e)
    (h : (if aligned then access else raise e s) = .next t) : TrapKeptOrRaisedBy i s t := by
  split at h
  · exact .inl (haccess h)
  · exact .inr ⟨e, he, raise_next h⟩

/-- The five instructions that raise address errors do so for their effective address. -/
theorem exec_raises_of_addressError {k : AccessKind} (hi : i.canRaise = some (.addressError k))
    (h : exec i s = .next t) : TrapKeptOrRaisedBy i s t := by
  cases i with
  | lh | lhu | lw => exact aligned_keeps_or_raises loadReg_trap ⟨rfl, rfl⟩ h
  | sh | sw => exact aligned_keeps_or_raises storeBytes_trap ⟨rfl, rfl⟩ h
  | _ => cases hi

/-- An instruction that completes leaves the trap record, or raises its exception and does nothing else. -/
theorem exec_keeps_or_raises (h : exec i s = .next t) : TrapKeptOrRaisedBy i s t := by
  cases exec_effect h with
  | raised e he =>
    cases e with
    | overflow => exact .inr ⟨_, ⟨he, by rw [memoryOperand_of_overflow he]; rfl⟩, rfl⟩
    | systemCall => exact .inr ⟨_, ⟨he, by rw [memoryOperand_of_systemCall he]; rfl⟩, rfl⟩
    | addressError => exact exec_raises_of_addressError he h
    | reservedInstruction => exact absurd he canRaise_ne_reservedInstruction
  | wroteReg r v _ => exact .inl (setReg_trap s r v)
  | linked r target _ => exact .inl (setReg_trap s r _)
  | wroteHiLo | drewHiLo | fellThrough | jumped | stored => exact .inl rfl

theorem exec_raises {r : TrapRecord} (htrap : s.trap = none) (h : exec i s = .next t) (hr : t.trap = some r) :
    ∃ e, RaisedBy i s e ∧ t = takeException e s ∧ r = e.record s.pc := by
  obtain hkept | ⟨e, he, rfl⟩ := exec_keeps_or_raises h
  · rw [hkept, htrap] at hr
    cases hr
  · cases hr
    exact ⟨e, he, rfl, rfl⟩

end instruction

/-! ### The table in both directions -/

/-- `x[8]` is the largest signed number, an odd address at which no half word and no word lies; `x[10]` is -1. -/
def raisingState : State := (State.reset.setReg 8 0x7FFFFFFF#32).setReg 10 0xFFFFFFFF#32

theorem raises_somewhere {i : Instr} {e : Exception} (h : exec i raisingState = raise e raisingState) :
    ∃ s t r, s.trap = none ∧ exec i s = .next t ∧ t.trap = some r :=
  ⟨raisingState, _, _, rfl, h, takeException_trap e raisingState⟩

/-- Settles O10: an instruction raises its own exception only; in `raisingState` the sums and differences with `x[8]`
overflow and the accesses at `x[8]` are misaligned. -/
theorem instructionsRaiseOnlyListed : Obligations.InstructionsRaiseOnlyListed := by
  constructor
  · intro i s t r htrap h hr
    obtain ⟨e, he, -, rfl⟩ := exec_raises htrap h hr
    exact he.kind
  · obtain ⟨hadd, haddi, hsub⟩ : addOverflows (raisingState.reg 8) (raisingState.reg 8) = true ∧
        addOverflows (raisingState.reg 8) (sext 1) = true ∧
        subOverflows (raisingState.reg 8) (raisingState.reg 10) = true := by decide
    have haddress : effectiveAddress raisingState 8 0 = 0x7FFFFFFF#32 := by decide
    have hodd : (effectiveAddress raisingState 8 0).toNat % 2 = 1 := haddress ▸ rfl
    have hword : (effectiveAddress raisingState 8 0).toNat % 4 ≠ 0 := by omega
    simp only [List.forall_mem_cons]
    exact ⟨raises_somewhere ((exec_add _ 8 8 9).trans (writeRegTrapping_of_overflow hadd)),
      raises_somewhere ((exec_addi _ 8 9 1).trans (writeRegTrapping_of_overflow haddi)),
      raises_somewhere ((exec_sub _ 8 10 9).trans (writeRegTrapping_of_overflow hsub)),
      raises_somewhere ((exec_lh _ 8 9 0).trans (loadHalf_of_odd _ hodd)),
      raises_somewhere ((exec_lhu _ 8 9 0).trans (loadHalf_of_odd _ hodd)),
      raises_somewhere (exec_lw_of_misaligned hword), raises_somewhere (exec_sh_of_odd hodd),
      raises_somewhere (exec_sw_of_misaligned hword), raises_somewhere (exec_syscall _ 0), nofun⟩

/-! ### The record of an exception (R176) -/

section record
variable (e : Exception) (pc : Word)

theorem record_badaddr_ne_none_iff :
    (e.record pc).badaddr ≠ none ↔ ∃ k, (e.record pc).kind = .addressError k := by
  cases e <;> simp [Exception.record]

theorem record_word_ne_none_iff : (e.record pc).word ≠ none ↔ (e.record pc).kind = .reservedInstruction := by
  cases e <;> simp [Exception.record]

end record

/-- A step that leaves a trap record took an exception: of the fetch, of the decode, or of the instruction. -/
theorem step_raises {s t : State} {r : TrapRecord} (h : step s = .next t) (hr : t.trap = some r) :
    ∃ e, t = takeException e s ∧ r = e.record s.pc ∧
      (e = .addressError .fetch s.pc ∨ e = .reservedInstruction (s.memWord s.pc) ∨
        ∃ i, decode (s.memWord s.pc) = .ok i ∧ RaisedBy i s e) := by
  obtain ⟨htrap, ⟨i, hfetch, hexec⟩ | ⟨e, hfetch, rfl⟩⟩ := step_next h
  · obtain ⟨e, he, ht, hrecord⟩ := exec_raises htrap hexec hr
    exact ⟨e, ht, hrecord, .inr (.inr ⟨i, decode_of_fetchInstr hfetch, he⟩)⟩
  · cases hr
    exact ⟨e, rfl, rfl, (fetchInstr_exception hfetch).imp_right .inl⟩

/-- Settles O9: what holds of every record, then what the three places that raise put into it. -/
theorem exceptionsArePrecise : Obligations.ExceptionsArePrecise := by
  intro s t r h hr
  obtain ⟨e, rfl, rfl, hcase⟩ := step_raises h hr
  have hend : step (takeException e s) = .fault .runEnded := step_trapped nofun
  refine ⟨takeException_trapped e s, rfl, record_epc e s.pc, record_badaddr_ne_none_iff e s.pc,
    record_word_ne_none_iff e s.pc, ?_⟩
  obtain rfl | rfl | ⟨i, hi, he⟩ := hcase
  · exact ⟨nofun, fun _ => rfl, fun _ hkind => absurd rfl hkind, hend⟩
  · exact ⟨fun _ => rfl, nofun, fun hkind => absurd rfl hkind, hend⟩
  · exact ⟨fun hkind => absurd (hkind ▸ he.kind) canRaise_ne_reservedInstruction,
      fun hkind => absurd (hkind ▸ he.kind) canRaise_ne_fetchError, fun _ _ => ⟨i, hi, he.kind, he.badaddr⟩, hend⟩

end Sys2Proof.Machine

/-! SUPPORT. The launch (spec/70_reset_and_hazards.md R190 to R192) and a word placed where it is fetched (log 7). -/

namespace Sys2Proof.Machine

/-! ### The launch state -/

section launch
variable (l : Launch)

theorem launch_reg (r : RegIdx) : (State.launch l).reg r = l.regValue r := by
  by_cases hr : r = 0#5
  · simp [State.reg, Launch.regValue, hr]
  · simp [State.reg, State.launch, hr]

theorem regValue_of_set {r : RegIdx} {v : Word} (hr : r ≠ 0#5) (h : l.initRegs.lookup r = some v) :
    l.regValue r = v := by
  simp [Launch.regValue, hr, h]

theorem regValue_of_unset {r : RegIdx} (hr : r ≠ 0#5) (h : l.initRegs.lookup r = none) :
    l.regValue r = Config.unsetRegister r.toNat := by
  simp [Launch.regValue, hr, h]

theorem launch_storage_zero : (State.launch l).regs[0] = 0#32 := by
  simp [State.launch, Launch.regValue]

theorem launch_memByte (h : (l.initMem.map (·.1)).Nodup) {c : Word × Byte} (hc : c ∈ l.initMem) :
    (State.launch l).memByte c.1 = c.2 :=
  read_writeCells_mem l.initMem [] c h hc

theorem launch_inv : (State.launch l).inv = true :=
  inv_iff.mpr ⟨wf_writeCells l.initMem [] wf_nil, launch_storage_zero l, rfl⟩

end launch

/-- Settles O20, part by part of the state; what is not set is the free value. -/
theorem launchState : Obligations.LaunchState := by
  intro l
  refine ⟨rfl, rfl, rfl, reg_zero _, fun r v hr h => ?_, fun r hr h => ?_, fun v h => ?_, fun v h => ?_, fun h => ?_,
    fun h => ?_, fun h c hc => launch_memByte l h hc, launch_inv l⟩
  · rw [launch_reg, regValue_of_set l hr h]
  · rw [launch_reg, regValue_of_unset l hr h]
  · rw [State.launch, h, Option.getD_some]
  · rw [State.launch, h, Option.getD_some]
  · rw [State.launch, h, Option.getD_none]
  · rw [State.launch, h, Option.getD_none]

/-! ### A word placed where it is fetched -/

section placeWord
variable (s : State) (w : Word)

theorem wordBase_aligned (a : Word) : (wordBase a).toNat % 4 = 0 := by
  rw [toNat_wordBase]
  omega

/-- An aligned word does not wrap round the end of the address space, so that one region holds it. -/
theorem region_covers_word {a p : Word} (ha : a.toNat % 4 = 0) (hp : p ∈ addressRange a 4) :
    Region.covers ⟨a.toNat, 4⟩ p = true := by
  obtain ⟨i, hi, rfl⟩ := mem_addressRange.mp hp
  simp only [Region.covers, Bool.and_eq_true, decide_eq_true_eq]
  bv_omega

theorem covered_withWordRegion (rs : List Region) {a p : Word} (ha : a.toNat % 4 = 0) (hp : p ∈ addressRange a 4) :
    covered (withWordRegion rs a) p = true := by
  unfold withWordRegion
  split
  next hall => exact List.all_eq_true.mp hall p hp
  next => simp [covered, region_covers_word ha hp]

theorem placeWord_fetchable : Fetchable (placeWord s w) := by
  have haligned := wordBase_aligned s.pc
  refine ⟨haligned, fun i hi => ?_⟩
  have hmem : wordBase s.pc + BitVec.ofNat 32 i ∈ addressRange (wordBase s.pc) 4 :=
    mem_addressRange.mpr ⟨i, hi, rfl⟩
  exact ⟨covered_withWordRegion s.params.memValid haligned hmem, covered_withWordRegion s.params.text haligned hmem⟩

theorem placeWord_memWord : (placeWord s w).memWord (placeWord s w).pc = w :=
  HoldsBytes.memWord (s := placeWord s w) (holdsBytes_writeCells s (wordBase s.pc) w (by decide))

theorem withFetchWord_toNat : s.withFetchWord 32 w.toNat = placeWord s w := by
  rw [State.withFetchWord, Nat.mod_eq_of_lt w.isLt, BitVec.ofNat_toNat, BitVec.setWidth_eq]

end placeWord

/-- Settles O22: the placed word can be fetched, and it is the word fetched. -/
theorem placedWordRunsNext : Obligations.PlacedWordRunsNext := by
  intro s w i hi
  rw [withFetchWord_toNat]
  have hdecode : decode ((placeWord s w).memWord (placeWord s w).pc) = .ok i := (placeWord_memWord s w).symm ▸ hi
  exact ⟨stepRunsDecodedInstruction _ i rfl (placeWord_fetchable s w) hdecode, fun _ => rfl, rfl, rfl⟩

end Sys2Proof.Machine
